-- ==== Sys2Proof/Word.lean ====
section
/-! DEFINITION. The words of the machine: 32-bit patterns and 5-bit register numbers (spec/00_scope.md R4, R6). -/

namespace Sys2Proof

/-- A register, a memory slot, an immediate, an instruction word: a 32-bit pattern (R4 `XLEN`, `ILEN`; R6). -/
abbrev Word := BitVec 32

/-- A register number as an instruction's 5-bit field holds it, `0 .. 31` (R6; spec/30_encoding.md R61). -/
abbrev RegNum := BitVec 5

end Sys2Proof
end

