-- ==== Sys2Proof/Config.lean ====
section
/-! DEFINITION. The parameters of the hardware with a fixed value (spec/00_scope.md R4). The two OPEN ones, the
program and `X0_HARDWIRED`, are fields of State. The spec leaves no value free (spec/93_implementation_defined.md
section 1), so there is no free value here. -/

namespace Sys2Proof

/-- `NREG`, the number of general registers (R4, spec/10_state.md R20). -/
abbrev Config.nreg : Nat := 32

/-- `MEM_SLOTS`, the number of data-memory words (R4, spec/10_state.md R27). -/
abbrev Config.memSlots : Nat := 2048

/-- `PC_STEP`, the default advance of the program counter (R4, spec/10_state.md R24). -/
abbrev Config.pcStep : Word := 4#32

/-- The bound `PROG_LEN` stays below (R4; decisions D9 and D21 of spec/92_eei_decisions.md). -/
abbrev Config.progLenBound : Nat := 2 ^ 29

end Sys2Proof
end

