-- ==== Sys2Proof/Syntax.lean ====
section
/-! DEFINITION. The decoded instructions, the sub-groups an opcode selects, the decode errors and the program slots
(spec/41_decoder.md R121, R124; spec/30_encoding.md R70, R82). -/

namespace Sys2Proof

/-- The closed union of decoded instructions (R121): one constructor per row of spec/opcode_table.json, the operands in
the order the rows of R121 list them. `imm` is the 32-bit value the format's immediate is parsed to (R68). -/
inductive Instr where
  -- Register format (spec/42_alu_register.md)
  | add (rd rs1 rs2 : RegNum)
  | sub (rd rs1 rs2 : RegNum)
  | xor (rd rs1 rs2 : RegNum)
  | or (rd rs1 rs2 : RegNum)
  | and (rd rs1 rs2 : RegNum)
  | sll (rd rs1 rs2 : RegNum)
  | srl (rd rs1 rs2 : RegNum)
  | sra (rd rs1 rs2 : RegNum)
  | slt (rd rs1 rs2 : RegNum)
  | sltu (rd rs1 rs2 : RegNum)
  -- Immediate format, ALU sub-group (spec/43_alu_immediate.md)
  | addi (rd rs1 : RegNum) (imm : Word)
  | xori (rd rs1 : RegNum) (imm : Word)
  | ori (rd rs1 : RegNum) (imm : Word)
  | andi (rd rs1 : RegNum) (imm : Word)
  | slli (rd rs1 : RegNum) (imm : Word)
  | srli (rd rs1 : RegNum) (imm : Word)
  | srai (rd rs1 : RegNum) (imm : Word)
  | slti (rd rs1 : RegNum) (imm : Word)
  | sltiu (rd rs1 : RegNum) (imm : Word)
  -- Immediate format, load sub-group (spec/44_load.md)
  | lb (rd rs1 : RegNum) (imm : Word)
  | lh (rd rs1 : RegNum) (imm : Word)
  | lw (rd rs1 : RegNum) (imm : Word)
  | lbu (rd rs1 : RegNum) (imm : Word)
  | lhu (rd rs1 : RegNum) (imm : Word)
  -- Immediate format, register-indirect jump (spec/45_jalr.md)
  | jalr (rd rs1 : RegNum) (imm : Word)
  -- Store format (spec/46_store.md)
  | sb (rs1 rs2 : RegNum) (imm : Word)
  | sh (rs1 rs2 : RegNum) (imm : Word)
  | sw (rs1 rs2 : RegNum) (imm : Word)
  -- Branch format (spec/47_branch.md)
  | beq (rs1 rs2 : RegNum) (imm : Word)
  | bne (rs1 rs2 : RegNum) (imm : Word)
  | blt (rs1 rs2 : RegNum) (imm : Word)
  | bge (rs1 rs2 : RegNum) (imm : Word)
  | bltu (rs1 rs2 : RegNum) (imm : Word)
  | bgeu (rs1 rs2 : RegNum) (imm : Word)
  -- UpperImmediate format (spec/48_upper_immediate.md)
  | lui (rd : RegNum) (imm : Word)
  | auipc (rd : RegNum) (imm : Word)
  -- Jump format (spec/49_jump.md)
  | jal (rd : RegNum) (imm : Word)
  deriving DecidableEq, Repr

/-- The format and sub-group an opcode selects (R70). -/
inductive Group where
  | register
  | immediateAlu
  | load
  | jalr
  | store
  | branch
  | lui
  | auipc
  | jal
  deriving DecidableEq, Repr

/-- The seven decode errors (R124), bare names without payload (spec/60_exceptions.md R271). -/
inductive DecodeError where
  /-- The slot's text is not 32 characters long (R262). -/
  | formatError
  /-- The opcode is none of the nine of R70 (R78, R263). -/
  | opcodeError
  /-- A recognised opcode with an unrecognised funct combination (R79, R264). -/
  | functError
  /-- A non-binary character in the `rd` field of a text slot (R265). -/
  | rdError
  /-- A non-binary character in the `rs1` field of a text slot (R266). -/
  | rs1Error
  /-- A non-binary character in the `rs2` field of a text slot (R267). -/
  | rs2Error
  /-- A non-binary character in the immediate of a text slot (R268). -/
  | immError
  deriving DecidableEq, Repr

/-- One slot of the program store (spec/10_state.md R28): a 32-bit instruction word, or text as the host's program holds
it (spec/30_encoding.md R82; decision D1; log 6). -/
inductive Slot where
  | word (w : Word)
  | text (t : List Char)
  deriving DecidableEq, Repr

end Sys2Proof
end

