-- ==== Sys2Proof/WellFormed.lean ====
section
/-! DEFINITION. Which instruction terms the decoder can produce (spec/30_encoding.md R63 to R67, R72, R87) and which
text is a well-formed slot (R82). -/

namespace Sys2Proof

/-- The I and S immediates: `0 .. 4095` (R63, R64). -/
def imm12Ok (imm : Word) : Bool := decide (imm.toNat < 2 ^ 12)

/-- The immediate Slli and Srli decode with: `0 .. 31` (R72). -/
def shamtOk (imm : Word) : Bool := decide (imm.toNat < 32)

/-- The immediate Srai decodes with: `1024 .. 1055` (R72). -/
def sraiOk (imm : Word) : Bool := decide (1024 ≤ imm.toNat ∧ imm.toNat ≤ 1055)

/-- The B immediate: the even numbers `0 .. 8190` (R65). -/
def immBOk (imm : Word) : Bool := decide (imm.toNat < 2 ^ 13 ∧ imm.toNat % 2 = 0)

/-- The U immediate: `0 .. 1048575` (R66). -/
def immUOk (imm : Word) : Bool := decide (imm.toNat < 2 ^ 20)

/-- The J immediate: the even numbers `0 .. 2097150` (R67). -/
def immJOk (imm : Word) : Bool := decide (imm.toNat < 2 ^ 21 ∧ imm.toNat % 2 = 0)

/-- The immediate of an instruction is in its format's range (R63 to R67, R72; the premise of the round trip of R87). -/
def Instr.wf : Instr → Bool
  | .add _ _ _ => true
  | .sub _ _ _ => true
  | .xor _ _ _ => true
  | .or _ _ _ => true
  | .and _ _ _ => true
  | .sll _ _ _ => true
  | .srl _ _ _ => true
  | .sra _ _ _ => true
  | .slt _ _ _ => true
  | .sltu _ _ _ => true
  | .addi _ _ imm => imm12Ok imm
  | .xori _ _ imm => imm12Ok imm
  | .ori _ _ imm => imm12Ok imm
  | .andi _ _ imm => imm12Ok imm
  | .slli _ _ imm => shamtOk imm
  | .srli _ _ imm => shamtOk imm
  | .srai _ _ imm => sraiOk imm
  | .slti _ _ imm => imm12Ok imm
  | .sltiu _ _ imm => imm12Ok imm
  | .lb _ _ imm => imm12Ok imm
  | .lh _ _ imm => imm12Ok imm
  | .lw _ _ imm => imm12Ok imm
  | .lbu _ _ imm => imm12Ok imm
  | .lhu _ _ imm => imm12Ok imm
  | .jalr _ _ imm => imm12Ok imm
  | .sb _ _ imm => imm12Ok imm
  | .sh _ _ imm => imm12Ok imm
  | .sw _ _ imm => imm12Ok imm
  | .beq _ _ imm => immBOk imm
  | .bne _ _ imm => immBOk imm
  | .blt _ _ imm => immBOk imm
  | .bge _ _ imm => immBOk imm
  | .bltu _ _ imm => immBOk imm
  | .bgeu _ _ imm => immBOk imm
  | .lui _ imm => immUOk imm
  | .auipc _ imm => immUOk imm
  | .jal _ imm => immJOk imm

/-- A character of a well-formed slot: '0' or '1' (R82). -/
def isBit (c : Char) : Bool := c == '0' || c == '1'

/-- A well-formed slot's text: 32 characters, each '0' or '1' (R82). -/
def textOk (t : List Char) : Bool := decide (t.length = 32) && t.all isBit

/-- A slot in the one form the program store keeps it in: text is kept only where it is not a well-formed word (log 6). -/
def Slot.wf : Slot → Bool
  | .word _ => true
  | .text t => !textOk t

end Sys2Proof
end

