-- ==== Sys2Proof/Decode.lean ====
section
/-! DEFINITION. The instruction decoder over 32-bit words and over text slots, the encoder, and the masks and matches of
spec/opcode_table.json (spec/30_encoding.md, spec/41_decoder.md). -/

namespace Sys2Proof

/-! ## Fields of a word (R61) -/

/-- `W[6:0]` (R61). -/
def opcodeField (w : Word) : BitVec 7 := w.extractLsb' 0 7

/-- `W[11:7]` (R61). -/
def rdField (w : Word) : RegNum := w.extractLsb' 7 5

/-- `W[14:12]` (R61). -/
def funct3Field (w : Word) : BitVec 3 := w.extractLsb' 12 3

/-- `W[19:15]` (R61). -/
def rs1Field (w : Word) : RegNum := w.extractLsb' 15 5

/-- `W[24:20]` (R61). -/
def rs2Field (w : Word) : RegNum := w.extractLsb' 20 5

/-- `W[31:25]` (R61). -/
def funct7Field (w : Word) : BitVec 7 := w.extractLsb' 25 7

/-! ## Immediates, zero-extended and never sign-extended (R68) -/

/-- `zext_12(W[31:20])` (R63). -/
def immI (w : Word) : Word := (w.extractLsb' 20 12).setWidth 32

/-- `zext_12(W[31:25] ++ W[11:7])` (R64). -/
def immS (w : Word) : Word := (w.extractLsb' 25 7 ++ w.extractLsb' 7 5).setWidth 32

/-- `zext_13(W[31] ++ W[7] ++ W[30:25] ++ W[11:8] ++ 0)` (R65). -/
def immB (w : Word) : Word :=
  (w.extractLsb' 31 1 ++ w.extractLsb' 7 1 ++ w.extractLsb' 25 6 ++ w.extractLsb' 8 4 ++ 0#1).setWidth 32

/-- `zext_20(W[31:12])`, not shifted here (R66). -/
def immU (w : Word) : Word := (w.extractLsb' 12 20).setWidth 32

/-- `zext_21(W[31] ++ W[19:12] ++ W[20] ++ W[30:21] ++ 0)` (R67). -/
def immJ (w : Word) : Word :=
  (w.extractLsb' 31 1 ++ w.extractLsb' 12 8 ++ w.extractLsb' 20 1 ++ w.extractLsb' 21 10 ++ 0#1).setWidth 32

/-! ## Dispatch (R70 to R77); the values but opcode 0110011 are the spec's decision D3 (log 7) -/

/-- The nine recognised opcodes (R70). -/
def groupOf (opcode : BitVec 7) : Option Group :=
  match opcode with
  | 0b0110011#7 => some .register
  | 0b0010011#7 => some .immediateAlu
  | 0b0000011#7 => some .load
  | 0b1100111#7 => some .jalr
  | 0b0100011#7 => some .store
  | 0b1100011#7 => some .branch
  | 0b0110111#7 => some .lui
  | 0b0010111#7 => some .auipc
  | 0b1101111#7 => some .jal
  | _ => none

/-- The Register format's operation for (`funct3`, `funct7`) (R71). -/
def registerOp (funct3 : BitVec 3) (funct7 : BitVec 7) : Option (RegNum → RegNum → RegNum → Instr) :=
  match funct3, funct7 with
  | 0b000#3, 0b0000000#7 => some .add
  | 0b000#3, 0b0100000#7 => some .sub
  | 0b001#3, 0b0000000#7 => some .sll
  | 0b010#3, 0b0000000#7 => some .slt
  | 0b011#3, 0b0000000#7 => some .sltu
  | 0b100#3, 0b0000000#7 => some .xor
  | 0b101#3, 0b0000000#7 => some .srl
  | 0b101#3, 0b0100000#7 => some .sra
  | 0b110#3, 0b0000000#7 => some .or
  | 0b111#3, 0b0000000#7 => some .and
  | _, _ => none

/-- The immediate-ALU operation for `funct3`; `funct7` is consulted for the shifts alone (R72, decision D5). -/
def immediateOp (funct3 : BitVec 3) (funct7 : BitVec 7) : Option (RegNum → RegNum → Word → Instr) :=
  match funct3 with
  | 0b000#3 => some .addi
  | 0b001#3 => if funct7 = 0b0000000#7 then some .slli else none
  | 0b010#3 => some .slti
  | 0b011#3 => some .sltiu
  | 0b100#3 => some .xori
  | 0b101#3 =>
    if funct7 = 0b0000000#7 then some .srli
    else if funct7 = 0b0100000#7 then some .srai
    else none
  | 0b110#3 => some .ori
  | 0b111#3 => some .andi
  | _ => none

/-- The load for `funct3` (R73). -/
def loadOp (funct3 : BitVec 3) : Option (RegNum → RegNum → Word → Instr) :=
  match funct3 with
  | 0b000#3 => some .lb
  | 0b001#3 => some .lh
  | 0b010#3 => some .lw
  | 0b100#3 => some .lbu
  | 0b101#3 => some .lhu
  | _ => none

/-- Jalr has `funct3` 000 alone (R74, decision D4). -/
def jalrOp (funct3 : BitVec 3) : Option (RegNum → RegNum → Word → Instr) :=
  match funct3 with
  | 0b000#3 => some .jalr
  | _ => none

/-- The store for `funct3` (R75). -/
def storeOp (funct3 : BitVec 3) : Option (RegNum → RegNum → Word → Instr) :=
  match funct3 with
  | 0b000#3 => some .sb
  | 0b001#3 => some .sh
  | 0b010#3 => some .sw
  | _ => none

/-- The branch for `funct3` (R76). -/
def branchOp (funct3 : BitVec 3) : Option (RegNum → RegNum → Word → Instr) :=
  match funct3 with
  | 0b000#3 => some .beq
  | 0b001#3 => some .bne
  | 0b100#3 => some .blt
  | 0b101#3 => some .bge
  | 0b110#3 => some .bltu
  | 0b111#3 => some .bgeu
  | _ => none

/-- The instruction of a word whose opcode selects the sub-group `g`, or `FunctError` (R123). -/
def decodeGroup (g : Group) (w : Word) : Except DecodeError Instr :=
  match g with
  | .register =>
    match registerOp (funct3Field w) (funct7Field w) with
    | some mk => .ok (mk (rdField w) (rs1Field w) (rs2Field w))
    | none => .error .functError
  | .immediateAlu =>
    match immediateOp (funct3Field w) (funct7Field w) with
    | some mk => .ok (mk (rdField w) (rs1Field w) (immI w))
    | none => .error .functError
  | .load =>
    match loadOp (funct3Field w) with
    | some mk => .ok (mk (rdField w) (rs1Field w) (immI w))
    | none => .error .functError
  | .jalr =>
    match jalrOp (funct3Field w) with
    | some mk => .ok (mk (rdField w) (rs1Field w) (immI w))
    | none => .error .functError
  | .store =>
    match storeOp (funct3Field w) with
    | some mk => .ok (mk (rs1Field w) (rs2Field w) (immS w))
    | none => .error .functError
  | .branch =>
    match branchOp (funct3Field w) with
    | some mk => .ok (mk (rs1Field w) (rs2Field w) (immB w))
    | none => .error .functError
  | .lui => .ok (.lui (rdField w) (immU w))
  | .auipc => .ok (.auipc (rdField w) (immU w))
  | .jal => .ok (.jal (rdField w) (immJ w))

/-- The decode algorithm over a 32-bit word, the opcode examined first (R123). -/
def decode (w : Word) : Except DecodeError Instr :=
  match groupOf (opcodeField w) with
  | some g => decodeGroup g w
  | none => .error .opcodeError

/-! ## The text form (R82 to R84) -/

/-- The value of a base-2 digit string, most significant digit first (R5, R68's magnitude parse). -/
def magnitude (t : List Char) : Nat := t.foldl (fun v c => 2 * v + (if c == '1' then 1 else 0)) 0

/-- The word of a well-formed slot: character `k` is bit `31 - k` (R82). -/
def textWord (t : List Char) : Word := BitVec.ofNat 32 (magnitude t)

/-- The low `n` bits of `v` as characters, most significant first (R5). -/
def bitsText : Nat → Nat → List Char
  | 0, _ => []
  | n + 1, v => bitsText n (v / 2) ++ [if v % 2 = 1 then '1' else '0']

/-- A word's text form (R82). -/
def wordText (w : Word) : List Char := bitsText 32 w.toNat

/-- The `n` characters of a text slot from position `first` on. -/
def textField (t : List Char) (first n : Nat) : List Char := (t.drop first).take n

/-- The bits of a text field, none where a character is not binary. -/
def textBits (n : Nat) (t : List Char) (first : Nat) : Option (BitVec n) :=
  if (textField t first n).all isBit then some (BitVec.ofNat n (magnitude (textField t first n))) else none

/-- The sub-group a text slot's opcode characters 25..31 select; none also where one of them is not binary (R84). -/
def textGroup (t : List Char) : Option Group :=
  match textBits 7 t 25 with
  | some opcode => groupOf opcode
  | none => none

/-- The characters of the funct fields the sub-group consults match a row of R71 to R76 (R84). -/
def textFunctOk (g : Group) (t : List Char) : Bool :=
  match g with
  | .register =>
    match textBits 3 t 17, textBits 7 t 0 with
    | some funct3, some funct7 => (registerOp funct3 funct7).isSome
    | _, _ => false
  | .immediateAlu =>
    match textBits 3 t 17 with
    | some funct3 =>
      if funct3 = 0b001#3 ∨ funct3 = 0b101#3 then
        match textBits 7 t 0 with
        | some funct7 => (immediateOp funct3 funct7).isSome
        | none => false
      else true
    | none => false
  | .load =>
    match textBits 3 t 17 with
    | some funct3 => (loadOp funct3).isSome
    | none => false
  | .jalr =>
    match textBits 3 t 17 with
    | some funct3 => (jalrOp funct3).isSome
    | none => false
  | .store =>
    match textBits 3 t 17 with
    | some funct3 => (storeOp funct3).isSome
    | none => false
  | .branch =>
    match textBits 3 t 17 with
    | some funct3 => (branchOp funct3).isSome
    | none => false
  | .lui => true
  | .auipc => true
  | .jal => true

/-- The format of the sub-group has an `rd` field: R, I, U, J (R62, R265). -/
def Group.hasRd : Group → Bool
  | .store => false
  | .branch => false
  | .register => true
  | .immediateAlu => true
  | .load => true
  | .jalr => true
  | .lui => true
  | .auipc => true
  | .jal => true

/-- The format of the sub-group has an `rs1` field: R, I, S, B (R62, R266). -/
def Group.hasRs1 : Group → Bool
  | .lui => false
  | .auipc => false
  | .jal => false
  | .register => true
  | .immediateAlu => true
  | .load => true
  | .jalr => true
  | .store => true
  | .branch => true

/-- The format of the sub-group has an `rs2` field: R, S, B (R62, R267). -/
def Group.hasRs2 : Group → Bool
  | .register => true
  | .store => true
  | .branch => true
  | .immediateAlu => false
  | .load => false
  | .jalr => false
  | .lui => false
  | .auipc => false
  | .jal => false

/-- The characters of the immediate: I `0..11`; S and B `0..6` and `20..24`; U and J `0..19`; R none (R84, R268). -/
def Group.immText (g : Group) (t : List Char) : List Char :=
  match g with
  | .register => []
  | .immediateAlu => textField t 0 12
  | .load => textField t 0 12
  | .jalr => textField t 0 12
  | .store => textField t 0 7 ++ textField t 20 5
  | .branch => textField t 0 7 ++ textField t 20 5
  | .lui => textField t 0 20
  | .auipc => textField t 0 20
  | .jal => textField t 0 20

/-- The first operand field of the format with a non-binary character, in the order rd, rs1, rs2, imm (R84, D2). -/
def textOperandError (g : Group) (t : List Char) : Option DecodeError :=
  if g.hasRd && !(textField t 20 5).all isBit then some .rdError
  else if g.hasRs1 && !(textField t 12 5).all isBit then some .rs1Error
  else if g.hasRs2 && !(textField t 7 5).all isBit then some .rs2Error
  else if !(g.immText t).all isBit then some .immError
  else none

/-- The decoder over the text of a slot, its checks in the order R84 fixes. -/
def decodeText (t : List Char) : Except DecodeError Instr :=
  if t.length ≠ 32 then .error .formatError
  else
    match textGroup t with
    | none => .error .opcodeError
    | some g =>
      if !textFunctOk g t then .error .functError
      else
        match textOperandError g t with
        | some e => .error e
        | none => decode (textWord t)

/-- The decoder over a program slot (R120, R123, R84). -/
def Slot.decode : Slot → Except DecodeError Instr
  | .word w => Sys2Proof.decode w
  | .text t => decodeText t

/-- The slot a text is loaded as: the word where the text is well-formed (R82; log 6). -/
def Slot.ofText (t : List Char) : Slot := if textOk t then .word (textWord t) else .text t

/-- The word whose `nbits` low bits are those of `w` and whose other bits are zero. -/
def tableWord (nbits w : Nat) : Word := BitVec.ofNat 32 (w % 2 ^ nbits)

/-- The instruction the decoder reads from a word numbered as spec/opcode_table.json numbers its bits; an instruction is
one slot, so there is no byte order to lay it out in (spec/20_memory.md R44). -/
def decodeTableWord (nbits w : Nat) : Option Instr :=
  match decode (tableWord nbits w) with
  | .ok i => some i
  | .error _ => none

/-! ## Encoding functions, the inverse of decode (R87) -/

/-- `enc_R` (R87). -/
def encR (funct7 : BitVec 7) (rs2 rs1 : RegNum) (funct3 : BitVec 3) (rd : RegNum) (opcode : BitVec 7) : Word :=
  funct7 ++ rs2 ++ rs1 ++ funct3 ++ rd ++ opcode

/-- `enc_I` (R87). -/
def encI (imm : Word) (rs1 : RegNum) (funct3 : BitVec 3) (rd : RegNum) (opcode : BitVec 7) : Word :=
  imm.extractLsb' 0 12 ++ rs1 ++ funct3 ++ rd ++ opcode

/-- `enc_S` (R87). -/
def encS (imm : Word) (rs2 rs1 : RegNum) (funct3 : BitVec 3) (opcode : BitVec 7) : Word :=
  imm.extractLsb' 5 7 ++ rs2 ++ rs1 ++ funct3 ++ imm.extractLsb' 0 5 ++ opcode

/-- `enc_B` (R87). -/
def encB (imm : Word) (rs2 rs1 : RegNum) (funct3 : BitVec 3) (opcode : BitVec 7) : Word :=
  imm.extractLsb' 12 1 ++ imm.extractLsb' 5 6 ++ rs2 ++ rs1 ++ funct3 ++ imm.extractLsb' 1 4 ++ imm.extractLsb' 11 1
    ++ opcode

/-- `enc_U` (R87). -/
def encU (imm : Word) (rd : RegNum) (opcode : BitVec 7) : Word := imm.extractLsb' 0 20 ++ rd ++ opcode

/-- `enc_J` (R87). -/
def encJ (imm : Word) (rd : RegNum) (opcode : BitVec 7) : Word :=
  imm.extractLsb' 20 1 ++ imm.extractLsb' 1 10 ++ imm.extractLsb' 11 1 ++ imm.extractLsb' 12 8 ++ rd ++ opcode

/-- The word of an instruction (R87 with the opcode and funct values of R70 to R77). -/
def encode : Instr → Word
  | .add rd rs1 rs2 => encR 0b0000000#7 rs2 rs1 0b000#3 rd 0b0110011#7
  | .sub rd rs1 rs2 => encR 0b0100000#7 rs2 rs1 0b000#3 rd 0b0110011#7
  | .xor rd rs1 rs2 => encR 0b0000000#7 rs2 rs1 0b100#3 rd 0b0110011#7
  | .or rd rs1 rs2 => encR 0b0000000#7 rs2 rs1 0b110#3 rd 0b0110011#7
  | .and rd rs1 rs2 => encR 0b0000000#7 rs2 rs1 0b111#3 rd 0b0110011#7
  | .sll rd rs1 rs2 => encR 0b0000000#7 rs2 rs1 0b001#3 rd 0b0110011#7
  | .srl rd rs1 rs2 => encR 0b0000000#7 rs2 rs1 0b101#3 rd 0b0110011#7
  | .sra rd rs1 rs2 => encR 0b0100000#7 rs2 rs1 0b101#3 rd 0b0110011#7
  | .slt rd rs1 rs2 => encR 0b0000000#7 rs2 rs1 0b010#3 rd 0b0110011#7
  | .sltu rd rs1 rs2 => encR 0b0000000#7 rs2 rs1 0b011#3 rd 0b0110011#7
  | .addi rd rs1 imm => encI imm rs1 0b000#3 rd 0b0010011#7
  | .xori rd rs1 imm => encI imm rs1 0b100#3 rd 0b0010011#7
  | .ori rd rs1 imm => encI imm rs1 0b110#3 rd 0b0010011#7
  | .andi rd rs1 imm => encI imm rs1 0b111#3 rd 0b0010011#7
  | .slli rd rs1 imm => encI imm rs1 0b001#3 rd 0b0010011#7
  | .srli rd rs1 imm => encI imm rs1 0b101#3 rd 0b0010011#7
  | .srai rd rs1 imm => encI imm rs1 0b101#3 rd 0b0010011#7
  | .slti rd rs1 imm => encI imm rs1 0b010#3 rd 0b0010011#7
  | .sltiu rd rs1 imm => encI imm rs1 0b011#3 rd 0b0010011#7
  | .lb rd rs1 imm => encI imm rs1 0b000#3 rd 0b0000011#7
  | .lh rd rs1 imm => encI imm rs1 0b001#3 rd 0b0000011#7
  | .lw rd rs1 imm => encI imm rs1 0b010#3 rd 0b0000011#7
  | .lbu rd rs1 imm => encI imm rs1 0b100#3 rd 0b0000011#7
  | .lhu rd rs1 imm => encI imm rs1 0b101#3 rd 0b0000011#7
  | .jalr rd rs1 imm => encI imm rs1 0b000#3 rd 0b1100111#7
  | .sb rs1 rs2 imm => encS imm rs2 rs1 0b000#3 0b0100011#7
  | .sh rs1 rs2 imm => encS imm rs2 rs1 0b001#3 0b0100011#7
  | .sw rs1 rs2 imm => encS imm rs2 rs1 0b010#3 0b0100011#7
  | .beq rs1 rs2 imm => encB imm rs2 rs1 0b000#3 0b1100011#7
  | .bne rs1 rs2 imm => encB imm rs2 rs1 0b001#3 0b1100011#7
  | .blt rs1 rs2 imm => encB imm rs2 rs1 0b100#3 0b1100011#7
  | .bge rs1 rs2 imm => encB imm rs2 rs1 0b101#3 0b1100011#7
  | .bltu rs1 rs2 imm => encB imm rs2 rs1 0b110#3 0b1100011#7
  | .bgeu rs1 rs2 imm => encB imm rs2 rs1 0b111#3 0b1100011#7
  | .lui rd imm => encU imm rd 0b0110111#7
  | .auipc rd imm => encU imm rd 0b0010111#7
  | .jal rd imm => encJ imm rd 0b1101111#7

/-! ## The rows of spec/opcode_table.json: a word is the row's operation exactly when `W &&& mask = match` -/

/-- The mask and the match of an instruction's row (R71 to R77, spec/opcode_table.json). -/
def Instr.row : Instr → Word × Word
  | .add _ _ _ => (0xFE00707F#32, 0x00000033#32)
  | .sub _ _ _ => (0xFE00707F#32, 0x40000033#32)
  | .xor _ _ _ => (0xFE00707F#32, 0x00004033#32)
  | .or _ _ _ => (0xFE00707F#32, 0x00006033#32)
  | .and _ _ _ => (0xFE00707F#32, 0x00007033#32)
  | .sll _ _ _ => (0xFE00707F#32, 0x00001033#32)
  | .srl _ _ _ => (0xFE00707F#32, 0x00005033#32)
  | .sra _ _ _ => (0xFE00707F#32, 0x40005033#32)
  | .slt _ _ _ => (0xFE00707F#32, 0x00002033#32)
  | .sltu _ _ _ => (0xFE00707F#32, 0x00003033#32)
  | .addi _ _ _ => (0x0000707F#32, 0x00000013#32)
  | .xori _ _ _ => (0x0000707F#32, 0x00004013#32)
  | .ori _ _ _ => (0x0000707F#32, 0x00006013#32)
  | .andi _ _ _ => (0x0000707F#32, 0x00007013#32)
  | .slli _ _ _ => (0xFE00707F#32, 0x00001013#32)
  | .srli _ _ _ => (0xFE00707F#32, 0x00005013#32)
  | .srai _ _ _ => (0xFE00707F#32, 0x40005013#32)
  | .slti _ _ _ => (0x0000707F#32, 0x00002013#32)
  | .sltiu _ _ _ => (0x0000707F#32, 0x00003013#32)
  | .lb _ _ _ => (0x0000707F#32, 0x00000003#32)
  | .lh _ _ _ => (0x0000707F#32, 0x00001003#32)
  | .lw _ _ _ => (0x0000707F#32, 0x00002003#32)
  | .lbu _ _ _ => (0x0000707F#32, 0x00004003#32)
  | .lhu _ _ _ => (0x0000707F#32, 0x00005003#32)
  | .jalr _ _ _ => (0x0000707F#32, 0x00000067#32)
  | .sb _ _ _ => (0x0000707F#32, 0x00000023#32)
  | .sh _ _ _ => (0x0000707F#32, 0x00001023#32)
  | .sw _ _ _ => (0x0000707F#32, 0x00002023#32)
  | .beq _ _ _ => (0x0000707F#32, 0x00000063#32)
  | .bne _ _ _ => (0x0000707F#32, 0x00001063#32)
  | .blt _ _ _ => (0x0000707F#32, 0x00004063#32)
  | .bge _ _ _ => (0x0000707F#32, 0x00005063#32)
  | .bltu _ _ _ => (0x0000707F#32, 0x00006063#32)
  | .bgeu _ _ _ => (0x0000707F#32, 0x00007063#32)
  | .lui _ _ => (0x0000007F#32, 0x00000037#32)
  | .auipc _ _ => (0x0000007F#32, 0x00000017#32)
  | .jal _ _ => (0x0000007F#32, 0x0000006F#32)

end Sys2Proof
end

