-- ==== Sys2Proof/Machine/State.lean ====
section
/-! DEFINITION. The state of the machine, its reset value, and the reasons a step can stop (spec/10_state.md,
spec/60_exceptions.md R260). -/

namespace Sys2Proof.Machine

/-- The data memory (R27): (slot, word) pairs, slots strictly rising, no word zero; an unlisted slot reads as zero, the
reset contents the spec gives (R33). A slot is a whole 32-bit word: spec/20_memory.md R44 forbids laying the words out
as bytes (log 5). -/
abbrev Memory := List (Nat × Word)

/-- The values of the fault latch other than `None` (R29). -/
inductive LatchedFault where
  /-- A load or store whose effective address is outside `0 .. 2047` (spec/60_exceptions.md R269). -/
  | memIndexFault
  /-- A Jalr whose target register number exceeds 31 (spec/60_exceptions.md R270). -/
  | regIndexFault
  deriving DecidableEq, Repr

/-- The architectural state (spec/10_state.md). The program store and `x0Hardwired` are the parameters of the run: no
step writes them (log 1, log 2). -/
structure State where
  /-- The register file `x[0] .. x[31]` (R20). -/
  regs : Vector Word 32
  /-- The program counter, an unsigned byte offset (R24, R26). -/
  pc : Word
  /-- The data memory (R27). -/
  mem : Memory
  /-- The fault latch (R29). -/
  fault : Option LatchedFault
  /-- The program store, slot 0 first; its length is `PROG_LEN` (R28). -/
  program : List Slot
  /-- The parameter `X0_HARDWIRED` (R21). -/
  x0Hardwired : Bool
  deriving DecidableEq, Repr

/-- The machine right after `construct(program)` for a setting of `X0_HARDWIRED` (R33, spec/70_reset_and_hazards.md
R290): everything zero, the latch `None`. -/
def State.initial (x0Hardwired : Bool) (program : List Slot) : State where
  regs := Vector.replicate 32 0#32
  pc := 0#32
  mem := []
  fault := none
  program := program
  x0Hardwired := x0Hardwired

/-- The machine right after reset, with `X0_HARDWIRED` at its default and nothing loaded: the empty program, which R4
allows (log 1, log 2). -/
def State.reset : State := State.initial true []

/-- Why a step stops: the ten non-Success outcomes of R260. None carries a payload (R271). -/
inductive Fault where
  /-- Raised by `step` at fetch when `floor(pc / 4)` is not below `PROG_LEN` (R261): the benign end of a program. Safe. -/
  | programCounterOutOfBounds
  /-- Raised by `step` for a text slot not 32 characters long (R262). Safe: the state is unchanged. -/
  | formatError
  /-- Raised by `step` for an unrecognised opcode (R263). Safe: the state is unchanged. -/
  | opcodeError
  /-- Raised by `step` for an unrecognised funct combination (R264). Safe: the state is unchanged. -/
  | functError
  /-- Raised by `step` for a text slot with a non-binary character in `rd` (R265). Safe: the state is unchanged. -/
  | rdError
  /-- Raised by `step` for a text slot with a non-binary character in `rs1` (R266). Safe: the state is unchanged. -/
  | rs1Error
  /-- Raised by `step` for a text slot with a non-binary character in `rs2` (R267). Safe: the state is unchanged. -/
  | rs2Error
  /-- Raised by `step` for a text slot with a non-binary character in the immediate (R268). Safe: the state is unchanged. -/
  | immError
  /-- Raised by `step` when the latch holds `MemIndexFault` (spec/40_engine_step.md R101, R269). Safe: the faulting
  instruction itself answers the state with the latch set (log 3). -/
  | memIndexFault
  /-- Raised by `step` when the latch holds `RegIndexFault` (spec/40_engine_step.md R101, R270). Safe: as above (log 3). -/
  | regIndexFault
  deriving DecidableEq, Repr

/-- Why an instruction has no meaning. -/
inductive Refusal where
  /-- Raised by an arm of `exec` whose instruction has no meaning yet: the outcome `UnimplementedOperation` of a partial
  build (spec/40_engine_step.md R109). No arm raises it: all 37 operations are implemented. Safe. -/
  | notModelled (mnemonic : String)
  deriving DecidableEq, Repr

/-- What an instruction or a step answers. -/
abbrev Result := Host.Outcome State Fault Refusal

end Sys2Proof.Machine
end

