-- ==== Sys2Proof/Machine/Ops.lean ====
section
/-! DEFINITION. The operations over registers, program counter, memory, fault latch and program store that every
instruction is written with (spec/00_scope.md R7). -/

namespace Sys2Proof.Machine

/-! ## Registers -/

/-- A write to register `i` is discarded and a read gives zero: register 0 under `X0_HARDWIRED` (spec/10_state.md R21). -/
def State.hardwired (s : State) (i : RegNum) : Bool := s.x0Hardwired && i == 0#5

/-- `x[i]` (R7; spec/10_state.md R20, R21). -/
def State.reg (s : State) (i : RegNum) : Word :=
  if s.hardwired i then 0#32 else s.regs[i.toNat]'i.isLt

/-- `x[i] <- v` (R7; spec/10_state.md R21). -/
def State.setReg (s : State) (i : RegNum) (v : Word) : State :=
  if s.hardwired i then s else { s with regs := s.regs.set i.toNat v i.isLt }

/-! ## Program counter -/

/-- `pc <- t` (R7). -/
def State.setPc (s : State) (t : Word) : State := { s with pc := t }

/-- The byte offset of the next instruction, `pc + 4` modulo `2^32` (spec/10_state.md R26). -/
def State.nextPc (s : State) : Word := s.pc + Config.pcStep

/-- The default advance (spec/40_engine_step.md R105). -/
def State.advance (s : State) : State := s.setPc s.nextPc

/-! ## Data memory -/

/-- The word in slot `a`; an unlisted slot holds zero (spec/10_state.md R33). -/
def Memory.read : Memory → Nat → Word
  | [], _ => 0#32
  | (k, v) :: rest, a => if a = k then v else Memory.read rest a

/-- Put a cell before the rest of a memory, unless its word is zero. -/
def Memory.cons (a : Nat) (v : Word) (m : Memory) : Memory := if v = 0#32 then m else (a, v) :: m

/-- Replace the word in slot `a` by `v`, keeping the canonical form. -/
def Memory.write : Memory → Nat → Word → Memory
  | [], a, v => Memory.cons a v []
  | (k, w) :: rest, a, v =>
    if a < k then Memory.cons a v ((k, w) :: rest)
    else if a = k then Memory.cons a v rest
    else (k, w) :: Memory.write rest a v

/-- The canonical form: slots strictly rising, each below `MEM_SLOTS`, no word zero. -/
abbrev Memory.wf (m : Memory) : Prop :=
  List.Pairwise (fun c d => c.1 < d.1) m ∧ ∀ c ∈ m, c.1 < Config.memSlots ∧ c.2 ≠ 0#32

/-- The slot an effective address names, none outside `0 .. 2047`: never wrapped, never clamped (spec/20_memory.md R41). -/
def slotOf (ea : Int) : Option Nat :=
  if 0 ≤ ea ∧ ea ≤ 2047 then some ea.toNat else none

/-- The three access widths (spec/20_memory.md R43). -/
inductive Width where
  | byte
  | half
  | full
  deriving DecidableEq, Repr

/-- The number of bits of an access. -/
def Width.bits : Width → Nat
  | .byte => 8
  | .half => 16
  | .full => 32

/-- The low bits of a slot's word, zero above (spec/20_memory.md R43, R55). -/
def Width.low (n : Width) (v : Word) : Word := (v.setWidth n.bits).setWidth 32

/-- The slot's new word: its low bits replaced by those of `v`, the high bits kept (spec/20_memory.md R55). -/
def Width.merge (n : Width) (old v : Word) : Word :=
  match n with
  | .byte => old.extractLsb' 8 24 ++ v.extractLsb' 0 8
  | .half => old.extractLsb' 16 16 ++ v.extractLsb' 0 16
  | .full => v

/-- `MemRead(a, n)`, none where it raises `MemIndexFault` (spec/20_memory.md R55). -/
def State.memRead (s : State) (ea : Int) (n : Width) : Option Word :=
  match slotOf ea with
  | some a => some (n.low (Memory.read s.mem a))
  | none => none

/-- `MemWrite(a, n, v)`, none where it raises `MemIndexFault` (spec/20_memory.md R55). -/
def State.memWrite (s : State) (ea : Int) (n : Width) (v : Word) : Option State :=
  match slotOf ea with
  | some a => some { s with mem := Memory.write s.mem a (n.merge (Memory.read s.mem a) v) }
  | none => none

/-! ## Faults: entry on a fault, and what a latched machine reports -/

/-- The entry on a fault: the latch is set, nothing else changes (spec/60_exceptions.md R274). There is no return: only
`construct` clears the latch (R275). -/
def State.takeFault (s : State) (f : LatchedFault) : State := { s with fault := some f }

/-- What a step of a latched machine reports (spec/40_engine_step.md R101). -/
def LatchedFault.report : LatchedFault → Fault
  | .memIndexFault => .memIndexFault
  | .regIndexFault => .regIndexFault

/-- The step error a decode error is (spec/40_engine_step.md R103, R106). -/
def stepError : DecodeError → Fault
  | .formatError => .formatError
  | .opcodeError => .opcodeError
  | .functError => .functError
  | .rdError => .rdError
  | .rs1Error => .rs1Error
  | .rs2Error => .rs2Error
  | .immError => .immError

/-! ## Instruction fetch -/

/-- The slot index `floor(pc / 4)`, with no alignment check (spec/10_state.md R25). -/
def State.fetchIndex (s : State) : Nat := s.pc.toNat / 4

/-- The fetched slot, none where the index is not below `PROG_LEN` (spec/20_memory.md R47). -/
def State.fetch (s : State) : Option Slot := s.program[s.fetchIndex]?

/-- The program with a slot placed at index `k`, extended by zero words where it does not reach so far. -/
def placeSlot (p : List Slot) (k : Nat) (x : Slot) : List Slot :=
  p.take k ++ List.replicate (k - p.length) (.word 0#32) ++ x :: p.drop (k + 1)

/-- The machine with a word in the slot the next step fetches, and the latch clear so that it fetches (log 1). -/
def State.placeWord (s : State) (w : Word) : State :=
  { s with program := placeSlot s.program s.fetchIndex (.word w), fault := none }

/-! ## Whole effects -/

/-- Write `v` to `rd`, then the default advance (spec/42_alu_register.md R150). -/
def State.finish (s : State) (rd : RegNum) (v : Word) : Result := .next (s.setReg rd v).advance

end Sys2Proof.Machine
end

