-- ==== Sys2Proof/Machine/Operands.lean ====
section
/-! DEFINITION. The operand forms: extensions, shift amounts, effective addresses, the computed register number of Jalr,
and the shared shapes of the instruction families. -/

namespace Sys2Proof.Machine

/-- `sext_N(v)` (spec/00_scope.md R7). -/
def sext (n : Width) (v : Word) : Word := (v.setWidth n.bits).signExtend 32

/-- `zext_N(v)` (spec/00_scope.md R7). -/
def zext (n : Width) (v : Word) : Word := n.low v

/-- A shift amount: the low five bits of the second operand (spec/42_alu_register.md R152, decision D6, log 9). -/
def shiftAmount (v : Word) : Nat := (v.extractLsb' 0 5).toNat

/-- `a << n` (R7). -/
def shiftLeft (a b : Word) : Word := a <<< shiftAmount b

/-- `a >>u n` (R7; spec/42_alu_register.md R159). -/
def shiftRightLogical (a b : Word) : Word := a >>> shiftAmount b

/-- `a >>s n` (R7; spec/42_alu_register.md R160). -/
def shiftRightArith (a b : Word) : Word := a.sshiftRight (shiftAmount b)

/-- The U immediate at execution, `imm << 12` (spec/48_upper_immediate.md R240). -/
def upper (imm : Word) : Word := imm <<< 12

/-- `ea = s(x[rs1]) + imm` in unbounded integers, `imm` never negative (spec/20_memory.md R42). -/
def State.ea (s : State) (rs1 : RegNum) (imm : Word) : Int := (s.reg rs1).toInt + (imm.toNat : Int)

/-- Jalr's target register number `t = rs1 + imm`, an integer sum (spec/45_jalr.md R200). -/
def targetNumber (rs1 : RegNum) (imm : Word) : Nat := rs1.toNat + imm.toNat

/-- Register ALU shape: `x[rd] <- op(x[rs1], x[rs2])`, then the default advance (spec/42_alu_register.md R150). -/
def State.aluRegister (s : State) (op : Word → Word → Word) (rd rs1 rs2 : RegNum) : Result :=
  s.finish rd (op (s.reg rs1) (s.reg rs2))

/-- Immediate ALU shape: `x[rd] <- op(x[rs1], imm)`, then the default advance (spec/43_alu_immediate.md R170). -/
def State.aluImmediate (s : State) (op : Word → Word → Word) (rd rs1 : RegNum) (imm : Word) : Result :=
  s.finish rd (op (s.reg rs1) imm)

/-- Load shape: the slot's low bits, extended, to `rd`; `MemIndexFault` out of range (spec/44_load.md R190). -/
def State.load (s : State) (n : Width) (extend : Word → Word) (rd rs1 : RegNum) (imm : Word) : Result :=
  match s.memRead (s.ea rs1 imm) n with
  | some v => s.finish rd (extend v)
  | none => .next (s.takeFault .memIndexFault)

/-- Store shape: the low bits of one slot replaced; `MemIndexFault` out of range (spec/46_store.md R210). -/
def State.store (s : State) (n : Width) (rs1 rs2 : RegNum) (imm : Word) : Result :=
  match s.memWrite (s.ea rs1 imm) n (s.reg rs2) with
  | some t => .next t.advance
  | none => .next (s.takeFault .memIndexFault)

/-- Branch shape: `pc + imm` where the predicate holds, else the default advance (spec/47_branch.md R220). -/
def State.branch (s : State) (holds : Word → Word → Bool) (rs1 rs2 : RegNum) (imm : Word) : Result :=
  if holds (s.reg rs1) (s.reg rs2) then .next (s.setPc (s.pc + imm)) else .next s.advance

/-- Link shape: `x[rd] <- pc + 4` and `pc <- target`, both from the state before (spec/10_state.md R23). -/
def State.link (s : State) (rd : RegNum) (target : Word) : Result := .next ((s.setReg rd s.nextPc).setPc target)

end Sys2Proof.Machine
end

