-- ==== Sys2Proof/Machine/Flags.lean ====
section
/-! DEFINITION. Comparisons. The hardware has no flags (spec/10_state.md R30): a comparison writes 0 or 1 to a general
register or decides a branch inside the same instruction. -/

namespace Sys2Proof.Machine

/-- Equality of the 32-bit patterns (spec/47_branch.md R221). -/
def isEqual (a b : Word) : Bool := a == b

/-- `s(a) < s(b)` (spec/42_alu_register.md R161, spec/47_branch.md R223). -/
def isLessSigned (a b : Word) : Bool := decide (a.toInt < b.toInt)

/-- `u(a) < u(b)` (spec/42_alu_register.md R162, spec/47_branch.md R225). -/
def isLessUnsigned (a b : Word) : Bool := decide (a.toNat < b.toNat)

/-- The pattern 1 where the comparison holds, else the pattern 0 (spec/42_alu_register.md R161). -/
def truthWord (b : Bool) : Word := if b then 1#32 else 0#32

end Sys2Proof.Machine
end

