-- ==== Sys2Proof/Machine/AluImmediate.lean ====
section
/-! DEFINITION. The register-immediate ALU operations (spec/43_alu_immediate.md); `imm` is never negative (R180). -/

namespace Sys2Proof.Machine

/-- Addi (R171): `x[rd] <- x[rs1] + imm` modulo `2^32`. -/
def execAddi (rd rs1 : RegNum) (imm : Word) (s : State) : Result :=
  s.aluImmediate (fun a b => a + b) rd rs1 imm

/-- Xori (R172): `x[rd] <- x[rs1] ^ imm`. -/
def execXori (rd rs1 : RegNum) (imm : Word) (s : State) : Result :=
  s.aluImmediate (fun a b => a ^^^ b) rd rs1 imm

/-- Ori (R173): `x[rd] <- x[rs1] | imm`. -/
def execOri (rd rs1 : RegNum) (imm : Word) (s : State) : Result :=
  s.aluImmediate (fun a b => a ||| b) rd rs1 imm

/-- Andi (R174): `x[rd] <- x[rs1] & imm`. -/
def execAndi (rd rs1 : RegNum) (imm : Word) (s : State) : Result :=
  s.aluImmediate (fun a b => a &&& b) rd rs1 imm

/-- Slli (R175): `x[rd] <- x[rs1] << imm[4:0]`. -/
def execSlli (rd rs1 : RegNum) (imm : Word) (s : State) : Result :=
  s.aluImmediate shiftLeft rd rs1 imm

/-- Srli (R176): `x[rd] <- x[rs1] >>u imm[4:0]`. -/
def execSrli (rd rs1 : RegNum) (imm : Word) (s : State) : Result :=
  s.aluImmediate shiftRightLogical rd rs1 imm

/-- Srai (R177): `x[rd] <- x[rs1] >>s imm[4:0]`. -/
def execSrai (rd rs1 : RegNum) (imm : Word) (s : State) : Result :=
  s.aluImmediate shiftRightArith rd rs1 imm

/-- Slti (R178): `x[rd] <- (s(x[rs1]) < imm) ? 1 : 0`. -/
def execSlti (rd rs1 : RegNum) (imm : Word) (s : State) : Result :=
  s.aluImmediate (fun a b => truthWord (isLessSigned a b)) rd rs1 imm

/-- Sltiu (R179): `x[rd] <- (u(x[rs1]) < imm) ? 1 : 0`. -/
def execSltiu (rd rs1 : RegNum) (imm : Word) (s : State) : Result :=
  s.aluImmediate (fun a b => truthWord (isLessUnsigned a b)) rd rs1 imm

end Sys2Proof.Machine
end

