-- ==== Sys2Proof/Machine/AluRegister.lean ====
section
/-! DEFINITION. The register-register ALU operations (spec/42_alu_register.md). -/

namespace Sys2Proof.Machine

/-- Add (R153): `x[rd] <- x[rs1] + x[rs2]` modulo `2^32`. -/
def execAdd (rd rs1 rs2 : RegNum) (s : State) : Result :=
  s.aluRegister (fun a b => a + b) rd rs1 rs2

/-- Sub (R154): `x[rd] <- x[rs1] - x[rs2]` modulo `2^32`. -/
def execSub (rd rs1 rs2 : RegNum) (s : State) : Result :=
  s.aluRegister (fun a b => a - b) rd rs1 rs2

/-- Xor (R155): `x[rd] <- x[rs1] ^ x[rs2]`. -/
def execXor (rd rs1 rs2 : RegNum) (s : State) : Result :=
  s.aluRegister (fun a b => a ^^^ b) rd rs1 rs2

/-- Or (R156): `x[rd] <- x[rs1] | x[rs2]`. -/
def execOr (rd rs1 rs2 : RegNum) (s : State) : Result :=
  s.aluRegister (fun a b => a ||| b) rd rs1 rs2

/-- And (R157): `x[rd] <- x[rs1] & x[rs2]`. -/
def execAnd (rd rs1 rs2 : RegNum) (s : State) : Result :=
  s.aluRegister (fun a b => a &&& b) rd rs1 rs2

/-- Sll (R158): `x[rd] <- x[rs1] << x[rs2][4:0]`. -/
def execSll (rd rs1 rs2 : RegNum) (s : State) : Result :=
  s.aluRegister shiftLeft rd rs1 rs2

/-- Srl (R159): `x[rd] <- x[rs1] >>u x[rs2][4:0]`. -/
def execSrl (rd rs1 rs2 : RegNum) (s : State) : Result :=
  s.aluRegister shiftRightLogical rd rs1 rs2

/-- Sra (R160): `x[rd] <- x[rs1] >>s x[rs2][4:0]`. -/
def execSra (rd rs1 rs2 : RegNum) (s : State) : Result :=
  s.aluRegister shiftRightArith rd rs1 rs2

/-- Slt (R161): `x[rd] <- (s(x[rs1]) < s(x[rs2])) ? 1 : 0`. -/
def execSlt (rd rs1 rs2 : RegNum) (s : State) : Result :=
  s.aluRegister (fun a b => truthWord (isLessSigned a b)) rd rs1 rs2

/-- Sltu (R162): `x[rd] <- (u(x[rs1]) < u(x[rs2])) ? 1 : 0`. -/
def execSltu (rd rs1 rs2 : RegNum) (s : State) : Result :=
  s.aluRegister (fun a b => truthWord (isLessUnsigned a b)) rd rs1 rs2

end Sys2Proof.Machine
end

