-- ==== Sys2Proof/Machine/Branch.lean ====
section
/-! DEFINITION. The conditional branches (spec/47_branch.md). -/

namespace Sys2Proof.Machine

/-- Beq (R221): taken where `x[rs1] = x[rs2]`. -/
def execBeq (rs1 rs2 : RegNum) (imm : Word) (s : State) : Result :=
  s.branch isEqual rs1 rs2 imm

/-- Bne (R222): taken where `x[rs1] != x[rs2]`. -/
def execBne (rs1 rs2 : RegNum) (imm : Word) (s : State) : Result :=
  s.branch (fun a b => !isEqual a b) rs1 rs2 imm

/-- Blt (R223): taken where `s(x[rs1]) < s(x[rs2])`. -/
def execBlt (rs1 rs2 : RegNum) (imm : Word) (s : State) : Result :=
  s.branch isLessSigned rs1 rs2 imm

/-- Bge (R224): taken where `s(x[rs1]) >= s(x[rs2])`. -/
def execBge (rs1 rs2 : RegNum) (imm : Word) (s : State) : Result :=
  s.branch (fun a b => !isLessSigned a b) rs1 rs2 imm

/-- Bltu (R225): taken where `u(x[rs1]) < u(x[rs2])`. -/
def execBltu (rs1 rs2 : RegNum) (imm : Word) (s : State) : Result :=
  s.branch isLessUnsigned rs1 rs2 imm

/-- Bgeu (R226): taken where `u(x[rs1]) >= u(x[rs2])`. -/
def execBgeu (rs1 rs2 : RegNum) (imm : Word) (s : State) : Result :=
  s.branch (fun a b => !isLessUnsigned a b) rs1 rs2 imm

end Sys2Proof.Machine
end

