-- ==== Sys2Proof/Machine/Jalr.lean ====
section
/-! DEFINITION. Jalr, the register-indirect jump (spec/45_jalr.md). -/

namespace Sys2Proof.Machine

/-- Jalr (R200): the target is the value of register NUMBER `rs1 + imm`, read before `rd` is written (R202); a number
above 31 raises `RegIndexFault` and `rd` is not written (R201). -/
def execJalr (rd rs1 : RegNum) (imm : Word) (s : State) : Result :=
  if 31 < targetNumber rs1 imm then .next (s.takeFault .regIndexFault)
  else s.link rd (s.reg (BitVec.ofNat 5 (targetNumber rs1 imm)))

end Sys2Proof.Machine
end

