-- ==== Sys2Proof/Machine/Jump.lean ====
section
/-! DEFINITION. Jal, the jump-and-link (spec/49_jump.md). -/

namespace Sys2Proof.Machine

/-- Jal (R250): `x[rd] <- pc + 4`, `pc <- pc + imm`, both from the `pc` of the Jal itself. -/
def execJal (rd : RegNum) (imm : Word) (s : State) : Result :=
  s.link rd (s.pc + imm)

end Sys2Proof.Machine
end

