-- ==== Sys2Proof/Machine/Load.lean ====
section
/-! DEFINITION. The loads (spec/44_load.md). -/

namespace Sys2Proof.Machine

/-- Lb (R191): `x[rd] <- sext_8(MemRead(ea, 8))`. -/
def execLb (rd rs1 : RegNum) (imm : Word) (s : State) : Result :=
  s.load .byte (sext .byte) rd rs1 imm

/-- Lh (R192): `x[rd] <- sext_16(MemRead(ea, 16))`. -/
def execLh (rd rs1 : RegNum) (imm : Word) (s : State) : Result :=
  s.load .half (sext .half) rd rs1 imm

/-- Lw (R193): `x[rd] <- MemRead(ea, 32)`. -/
def execLw (rd rs1 : RegNum) (imm : Word) (s : State) : Result :=
  s.load .full id rd rs1 imm

/-- Lbu (R194): `x[rd] <- zext_8(MemRead(ea, 8))`. -/
def execLbu (rd rs1 : RegNum) (imm : Word) (s : State) : Result :=
  s.load .byte (zext .byte) rd rs1 imm

/-- Lhu (R195): `x[rd] <- zext_16(MemRead(ea, 16))`. -/
def execLhu (rd rs1 : RegNum) (imm : Word) (s : State) : Result :=
  s.load .half (zext .half) rd rs1 imm

end Sys2Proof.Machine
end

