-- ==== Sys2Proof/Machine/Store.lean ====
section
/-! DEFINITION. The stores (spec/46_store.md). -/

namespace Sys2Proof.Machine

/-- Sb (R211): `MemWrite(ea, 8, x[rs2])`. -/
def execSb (rs1 rs2 : RegNum) (imm : Word) (s : State) : Result :=
  s.store .byte rs1 rs2 imm

/-- Sh (R212): `MemWrite(ea, 16, x[rs2])`. -/
def execSh (rs1 rs2 : RegNum) (imm : Word) (s : State) : Result :=
  s.store .half rs1 rs2 imm

/-- Sw (R213): `MemWrite(ea, 32, x[rs2])`. -/
def execSw (rs1 rs2 : RegNum) (imm : Word) (s : State) : Result :=
  s.store .full rs1 rs2 imm

end Sys2Proof.Machine
end

