-- ==== Sys2Proof/Machine/UpperImmediate.lean ====
section
/-! DEFINITION. The upper-immediate operations (spec/48_upper_immediate.md). -/

namespace Sys2Proof.Machine

/-- Lui (R240): `x[rd] <- imm << 12`. -/
def execLui (rd : RegNum) (imm : Word) (s : State) : Result :=
  s.finish rd (upper imm)

/-- Auipc (R241): `x[rd] <- pc + (imm << 12)` modulo `2^32`, from the unrounded `pc`. -/
def execAuipc (rd : RegNum) (imm : Word) (s : State) : Result :=
  s.finish rd (s.pc + upper imm)

end Sys2Proof.Machine
end

