-- ==== Sys2Proof/Machine/Step.lean ====
section
/-! DEFINITION. One step: latch check, fetch, decode, dispatch (spec/40_engine_step.md R100). The next state's program
counter is the meaning's (R105). -/

namespace Sys2Proof.Machine

/-- `step()` in the order of R100 and R272. A step error and a latched fault answer `fault` (the state is unchanged); a
Success and the entry on a fault answer `next` (log 3, log 4). `hostStep` gives the spec's outcome and state together. -/
def step (s : State) : Host.Outcome State Fault Refusal :=
  match s.fault with
  | some f => .fault f.report
  | none =>
    match s.fetch with
    | none => .fault .programCounterOutOfBounds
    | some x =>
      match x.decode with
      | .error e => .fault (stepError e)
      | .ok i => exec i s

/-- The machine with the instruction whose bits are `w`, numbered as spec/opcode_table.json numbers them, in the slot the
next step fetches (log 1). -/
def State.withFetchWord (s : State) (nbits w : Nat) : State := s.placeWord (tableWord nbits w)

end Sys2Proof.Machine
end

