-- ==== Sys2Proof/Machine/HostOps.lean ====
section
/-! DEFINITION. The four operations the core exposes to its host, the outcome of a step as the spec names it, and a run
(spec/00_scope.md R9; spec/40_engine_step.md R106, R108). -/

namespace Sys2Proof.Machine

/-- The program store a sequence of texts is loaded as (spec/10_state.md R28). -/
def loadText (p : List (List Char)) : List Slot := p.map Slot.ofText

/-- `construct(program)` for a setting of `X0_HARDWIRED` (R9; spec/70_reset_and_hazards.md R290); none for a program of
`2^29` slots or more, which R4 and D9 refuse. -/
def construct (x0Hardwired : Bool) (program : List Slot) : Option State :=
  if program.length < Config.progLenBound then some (State.initial x0Hardwired program) else none

/-- `registers()`: the 32 words as an instruction reads them (R9; spec/10_state.md R34). -/
def State.registers (s : State) : Vector Word 32 := Vector.ofFn (fun i => s.reg (BitVec.ofFin i))

/-- `memory()`: the 2048 words (R9; spec/10_state.md R34). -/
def State.memory (s : State) : Vector Word 2048 := Vector.ofFn (fun a => Memory.read s.mem a.val)

/-- The outcome of a step (spec/40_engine_step.md R106). -/
inductive Report where
  /-- The instruction had its effect. -/
  | success
  /-- One of the eight step errors or of the two faults. -/
  | failed (r : Fault)
  /-- `UnimplementedOperation` (R109), which cannot occur. -/
  | unimplementedOperation
  deriving DecidableEq, Repr

/-- `step()`: the state after it and its outcome (R100). The outcome of a step that enters a fault is read off the latch
it set (log 3). -/
def hostStep (s : State) : State × Report :=
  match step s with
  | .next t =>
    match t.fault with
    | none => (t, .success)
    | some f => (t, .failed f.report)
  | .fault r => (s, .failed r)
  | .refused _ => (s, .unimplementedOperation)

/-- A run: steps until the first outcome that is not Success, whose state is the final state; the outcome is none where
the fuel ends first (R108, decision D26; spec/70_reset_and_hazards.md R295). -/
def hostRun : Nat → State → State × Option Report
  | 0, s => (s, none)
  | fuel + 1, s =>
    match hostStep s with
    | (t, .success) => hostRun fuel t
    | (t, r) => (t, some r)

end Sys2Proof.Machine
end

