-- ==== Sys2Proof/Safety.lean ====
section
/-! DEFINITION. The terms claims are stated in: the invariant, what one instruction may change, the four shapes of a
completed instruction, and the defects of a text slot. -/

namespace Sys2Proof.Machine

/-- What every run keeps: memory in its canonical form, register 0 zero while hardwired (spec/10_state.md R21), the
program within its bound (spec/00_scope.md R4). -/
structure State.Inv (s : State) : Prop where
  mem : Memory.wf s.mem
  zero : s.x0Hardwired = true → s.regs[0] = 0#32
  len : s.program.length < Config.progLenBound

/-- Everything but registers, memory, pc and latch: the parameters of the run (spec/10_state.md R28). -/
def SameParams (s t : State) : Prop := t.program = s.program ∧ t.x0Hardwired = s.x0Hardwired

/-- `t` is `s` after `x[rd] <- v` and `pc <- p`, every other register, every slot and the latch as before. -/
def WritesReg (s t : State) (rd : RegNum) (v p : Word) : Prop :=
  (∀ j : RegNum, t.reg j = if j = rd ∧ ¬ (s.x0Hardwired = true ∧ rd = 0#5) then v else s.reg j) ∧
  (∀ a : Nat, Memory.read t.mem a = Memory.read s.mem a) ∧ t.pc = p ∧ t.fault = s.fault ∧ SameParams s t

/-- `t` is `s` after slot `a` received `v` and the default advance, every other slot, every register and the latch as
before. -/
def WritesSlot (s t : State) (a : Nat) (v : Word) : Prop :=
  Memory.read t.mem a = v ∧ (∀ b : Nat, b ≠ a → Memory.read t.mem b = Memory.read s.mem b) ∧
  (∀ j : RegNum, t.reg j = s.reg j) ∧ t.pc = s.pc + 4#32 ∧ t.fault = s.fault ∧ SameParams s t

/-- `t` is `s` after `pc <- p`, every register, every slot and the latch as before. -/
def OnlyPc (s t : State) (p : Word) : Prop :=
  (∀ j : RegNum, t.reg j = s.reg j) ∧ (∀ a : Nat, Memory.read t.mem a = Memory.read s.mem a) ∧ t.pc = p ∧
  t.fault = s.fault ∧ SameParams s t

/-- `t` is `s` after the entry on fault `f`: the latch set, everything else as before (spec/60_exceptions.md R274). -/
def EntersFault (s t : State) (f : LatchedFault) : Prop :=
  t.fault = some f ∧ (∀ j : RegNum, t.reg j = s.reg j) ∧ (∀ a : Nat, Memory.read t.mem a = Memory.read s.mem a) ∧
  t.pc = s.pc ∧ SameParams s t

/-- Each of the five loads into `rd` at `off(rb)` completes from `t` with what it takes from a slot that holds `w`: the
sign- or zero-extended low byte or half, or the whole word (spec/44_load.md R191 to R195). -/
def LoadsSee (t : State) (rd rb : RegNum) (off w : Word) : Prop :=
  (∃ u v, exec (.lb rd rb off) t = .next u ∧ v.toInt = Int.bmod (w.toNat : Int) (2 ^ 8) ∧
    WritesReg t u rd v (t.pc + 4#32)) ∧
  (∃ u v, exec (.lh rd rb off) t = .next u ∧ v.toInt = Int.bmod (w.toNat : Int) (2 ^ 16) ∧
    WritesReg t u rd v (t.pc + 4#32)) ∧
  (∃ u, exec (.lw rd rb off) t = .next u ∧ WritesReg t u rd w (t.pc + 4#32)) ∧
  (∃ u v, exec (.lbu rd rb off) t = .next u ∧ v.toNat = w.toNat % 2 ^ 8 ∧ WritesReg t u rd v (t.pc + 4#32)) ∧
  (∃ u v, exec (.lhu rd rb off) t = .next u ∧ v.toNat = w.toNat % 2 ^ 16 ∧ WritesReg t u rd v (t.pc + 4#32))

/-- One of the characters `lo .. hi` of a text slot is neither '0' nor '1' (spec/60_exceptions.md R265). -/
def NonBinaryAt (t : List Char) (lo hi : Nat) : Prop :=
  ∃ k c, lo ≤ k ∧ k ≤ hi ∧ t[k]? = some c ∧ c ≠ '0' ∧ c ≠ '1'

/-- A text slot passes the checks of length, opcode and funct and selects the sub-group `g` (spec/30_encoding.md R84). -/
def ReachesOperands (t : List Char) (g : Group) : Prop :=
  t.length = 32 ∧ textGroup t = some g ∧ decodeText t ≠ .error .functError

/-- A non-binary character in the `rd` field of a format that has one: R, I, U, J (spec/60_exceptions.md R265). -/
def RdDefect (t : List Char) (g : Group) : Prop :=
  g ∈ [.register, .immediateAlu, .load, .jalr, .lui, .auipc, .jal] ∧ NonBinaryAt t 20 24

/-- A non-binary character in the `rs1` field of a format that has one: R, I, S, B (spec/60_exceptions.md R266). -/
def Rs1Defect (t : List Char) (g : Group) : Prop :=
  g ∈ [.register, .immediateAlu, .load, .jalr, .store, .branch] ∧ NonBinaryAt t 12 16

/-- A non-binary character in the `rs2` field of a format that has one: R, S, B (spec/60_exceptions.md R267). -/
def Rs2Defect (t : List Char) (g : Group) : Prop :=
  g ∈ [.register, .store, .branch] ∧ NonBinaryAt t 7 11

/-- A non-binary character in the immediate of a format that has one: I, S, B, U, J (spec/60_exceptions.md R268). -/
def ImmDefect (t : List Char) (g : Group) : Prop :=
  (g ∈ [.immediateAlu, .load, .jalr] ∧ NonBinaryAt t 0 11) ∨
  (g ∈ [.store, .branch] ∧ (NonBinaryAt t 0 6 ∨ NonBinaryAt t 20 24)) ∨
  (g ∈ [.lui, .auipc, .jal] ∧ NonBinaryAt t 0 19)

/-- The register an instruction names as its destination; stores and branches have none (spec/41_decoder.md R121). -/
def destReg : Instr → Option RegNum
  | .add rd _ _ => some rd
  | .sub rd _ _ => some rd
  | .xor rd _ _ => some rd
  | .or rd _ _ => some rd
  | .and rd _ _ => some rd
  | .sll rd _ _ => some rd
  | .srl rd _ _ => some rd
  | .sra rd _ _ => some rd
  | .slt rd _ _ => some rd
  | .sltu rd _ _ => some rd
  | .addi rd _ _ => some rd
  | .xori rd _ _ => some rd
  | .ori rd _ _ => some rd
  | .andi rd _ _ => some rd
  | .slli rd _ _ => some rd
  | .srli rd _ _ => some rd
  | .srai rd _ _ => some rd
  | .slti rd _ _ => some rd
  | .sltiu rd _ _ => some rd
  | .lb rd _ _ => some rd
  | .lh rd _ _ => some rd
  | .lw rd _ _ => some rd
  | .lbu rd _ _ => some rd
  | .lhu rd _ _ => some rd
  | .jalr rd _ _ => some rd
  | .sb _ _ _ => none
  | .sh _ _ _ => none
  | .sw _ _ _ => none
  | .beq _ _ _ => none
  | .bne _ _ _ => none
  | .blt _ _ _ => none
  | .bge _ _ _ => none
  | .bltu _ _ _ => none
  | .bgeu _ _ _ => none
  | .lui rd _ => some rd
  | .auipc rd _ => some rd
  | .jal rd _ => some rd

/-- The effective address an instruction loads from or stores to (spec/20_memory.md R42); none where it accesses no
memory. -/
def memAddress (s : State) : Instr → Option Int
  | .lb _ rs1 imm => some (s.ea rs1 imm)
  | .lh _ rs1 imm => some (s.ea rs1 imm)
  | .lw _ rs1 imm => some (s.ea rs1 imm)
  | .lbu _ rs1 imm => some (s.ea rs1 imm)
  | .lhu _ rs1 imm => some (s.ea rs1 imm)
  | .sb rs1 _ imm => some (s.ea rs1 imm)
  | .sh rs1 _ imm => some (s.ea rs1 imm)
  | .sw rs1 _ imm => some (s.ea rs1 imm)
  | .add _ _ _ => none
  | .sub _ _ _ => none
  | .xor _ _ _ => none
  | .or _ _ _ => none
  | .and _ _ _ => none
  | .sll _ _ _ => none
  | .srl _ _ _ => none
  | .sra _ _ _ => none
  | .slt _ _ _ => none
  | .sltu _ _ _ => none
  | .addi _ _ _ => none
  | .xori _ _ _ => none
  | .ori _ _ _ => none
  | .andi _ _ _ => none
  | .slli _ _ _ => none
  | .srli _ _ _ => none
  | .srai _ _ _ => none
  | .slti _ _ _ => none
  | .sltiu _ _ _ => none
  | .jalr _ _ _ => none
  | .beq _ _ _ => none
  | .bne _ _ _ => none
  | .blt _ _ _ => none
  | .bge _ _ _ => none
  | .bltu _ _ _ => none
  | .bgeu _ _ _ => none
  | .lui _ _ => none
  | .auipc _ _ => none
  | .jal _ _ => none

/-- The slot an instruction stores to, none where it stores nothing (spec/46_store.md R210). -/
def storeSlot (s : State) (i : Instr) : Option Nat :=
  match destReg i, memAddress s i with
  | none, some ea => slotOf ea
  | _, _ => none

/-- The byte offset a branch or Jal adds to the pc where it redirects it (spec/10_state.md R24). -/
def jumpOffset : Instr → Option Word
  | .beq _ _ imm => some imm
  | .bne _ _ imm => some imm
  | .blt _ _ imm => some imm
  | .bge _ _ imm => some imm
  | .bltu _ _ imm => some imm
  | .bgeu _ _ imm => some imm
  | .jal _ imm => some imm
  | .add _ _ _ => none
  | .sub _ _ _ => none
  | .xor _ _ _ => none
  | .or _ _ _ => none
  | .and _ _ _ => none
  | .sll _ _ _ => none
  | .srl _ _ _ => none
  | .sra _ _ _ => none
  | .slt _ _ _ => none
  | .sltu _ _ _ => none
  | .addi _ _ _ => none
  | .xori _ _ _ => none
  | .ori _ _ _ => none
  | .andi _ _ _ => none
  | .slli _ _ _ => none
  | .srli _ _ _ => none
  | .srai _ _ _ => none
  | .slti _ _ _ => none
  | .sltiu _ _ _ => none
  | .lb _ _ _ => none
  | .lh _ _ _ => none
  | .lw _ _ _ => none
  | .lbu _ _ _ => none
  | .lhu _ _ _ => none
  | .jalr _ _ _ => none
  | .sb _ _ _ => none
  | .sh _ _ _ => none
  | .sw _ _ _ => none
  | .lui _ _ => none
  | .auipc _ _ => none

/-- Jalr's target register number, none for every other instruction (spec/45_jalr.md R200). -/
def jalrNumber : Instr → Option Nat
  | .jalr _ rs1 imm => some (targetNumber rs1 imm)
  | .add _ _ _ => none
  | .sub _ _ _ => none
  | .xor _ _ _ => none
  | .or _ _ _ => none
  | .and _ _ _ => none
  | .sll _ _ _ => none
  | .srl _ _ _ => none
  | .sra _ _ _ => none
  | .slt _ _ _ => none
  | .sltu _ _ _ => none
  | .addi _ _ _ => none
  | .xori _ _ _ => none
  | .ori _ _ _ => none
  | .andi _ _ _ => none
  | .slli _ _ _ => none
  | .srli _ _ _ => none
  | .srai _ _ _ => none
  | .slti _ _ _ => none
  | .sltiu _ _ _ => none
  | .lb _ _ _ => none
  | .lh _ _ _ => none
  | .lw _ _ _ => none
  | .lbu _ _ _ => none
  | .lhu _ _ _ => none
  | .sb _ _ _ => none
  | .sh _ _ _ => none
  | .sw _ _ _ => none
  | .beq _ _ _ => none
  | .bne _ _ _ => none
  | .blt _ _ _ => none
  | .bge _ _ _ => none
  | .bltu _ _ _ => none
  | .bgeu _ _ _ => none
  | .lui _ _ => none
  | .auipc _ _ => none
  | .jal _ _ => none

end Sys2Proof.Machine
end

