-- ==== Sys2Proof/Certificates/Slice0/Obligations.lean ====
section
/-! DEFINITION. The statements for the provers, from the numbered rules of spec/. Every result statement says in one
equation that the instruction completes, what it writes, and that nothing else changes (WritesReg, WritesSlot, OnlyPc,
EntersFault of Sys2Proof/Safety.lean). Immediates are quantified as the bits the encoding holds, so every form is in.
The opcode and funct values in the decode clauses are the rules' own, which the spec takes from decision D3 (log 7); the
32-bit pc is decision D9 (log 10). -/

open Sys2Proof Sys2Proof.Machine

/-! ## Encoding and decoding -/

/-- Decoding the word of a well-formed instruction gives the instruction back, with every operand at every value the
encoding admits (spec/30_encoding.md R87, a sentence the spec marks derived from R63 to R67 and R72). -/
def Obligations.DecodeEncodeRoundTrip : Prop :=
  ∀ i : Instr, i.wf = true → decode (encode i) = .ok i

/-- Encoding the decoded instruction gives the word back: no bit of a decodable word is dropped (R60 to R67, R87). -/
def Obligations.EncodeDecodeRoundTrip : Prop :=
  ∀ (w : Word) (i : Instr), decode w = .ok i → encode i = w

/-- Every decoded immediate lies in its format's range (R63 to R67, R72), so it is never negative (R68). -/
def Obligations.DecodedImmediatesInRange : Prop :=
  ∀ (w : Word) (i : Instr), decode w = .ok i → i.wf = true

/-- A word is a row's operation exactly when `W &&& mask = match` with the row's mask and match of
spec/opcode_table.json (the reading of the table in spec/30_encoding.md; the values are decision D3, log 7). -/
def Obligations.OpcodeTableSelectsOperation : Prop :=
  ∀ (w : Word) (i : Instr), (w &&& i.row.1 = i.row.2) ↔ ∃ j, decode w = .ok j ∧ j.row = i.row

/-- Over words there are two decode errors: OpcodeError exactly for an opcode outside the nine of R70, FunctError exactly
for the combinations R79 lists (decisions D3, D4, D5, D19; logs 7 and 12). -/
def Obligations.WordDecodeErrors : Prop :=
  ∀ w : Word,
    (decode w = .error .opcodeError ↔
      opcodeField w ∉ [0b0110011#7, 0b0010011#7, 0b0000011#7, 0b1100111#7, 0b0100011#7, 0b1100011#7, 0b0110111#7,
        0b0010111#7, 0b1101111#7]) ∧
    (decode w = .error .functError ↔
      (opcodeField w = 0b0110011#7 ∧
        (funct3Field w, funct7Field w) ∉
          [(0b000#3, 0b0000000#7), (0b000#3, 0b0100000#7), (0b001#3, 0b0000000#7), (0b010#3, 0b0000000#7),
            (0b011#3, 0b0000000#7), (0b100#3, 0b0000000#7), (0b101#3, 0b0000000#7), (0b101#3, 0b0100000#7),
            (0b110#3, 0b0000000#7), (0b111#3, 0b0000000#7)]) ∨
      (opcodeField w = 0b0010011#7 ∧ funct3Field w = 0b001#3 ∧ funct7Field w ≠ 0b0000000#7) ∨
      (opcodeField w = 0b0010011#7 ∧ funct3Field w = 0b101#3 ∧ funct7Field w ∉ [0b0000000#7, 0b0100000#7]) ∨
      (opcodeField w = 0b0000011#7 ∧ funct3Field w ∈ [0b011#3, 0b110#3, 0b111#3]) ∨
      (opcodeField w = 0b1100111#7 ∧ funct3Field w ≠ 0b000#3) ∨
      (opcodeField w = 0b0100011#7 ∧ funct3Field w ∈ [0b011#3, 0b100#3, 0b101#3, 0b110#3, 0b111#3]) ∨
      (opcodeField w = 0b1100011#7 ∧ funct3Field w ∈ [0b010#3, 0b011#3])) ∧
    (∀ e, decode w = .error e → e = .opcodeError ∨ e = .functError)

/-- Well-formed text slots and words correspond one-to-one, character `k` holding bit `31 - k`, and the text decoder
agrees with the word decoder on them (spec/00_scope.md R5, spec/30_encoding.md R82; decision D1, log 6). -/
def Obligations.TextFormAgreesWithWords : Prop :=
  (∀ w : Word, textOk (wordText w) = true ∧ textWord (wordText w) = w ∧ decodeText (wordText w) = decode w) ∧
  (∀ t : List Char, textOk t = true → wordText (textWord t) = t) ∧
  (∀ (w : Word) (k : Nat), k < 32 → (wordText w)[k]? = some (if w.getLsbD (31 - k) = true then '1' else '0'))

/-- FormatError is the outcome of a step exactly where the fetched slot is text not 32 characters long, whatever it
contains, and then the state is unchanged; a word slot never gives it (spec/60_exceptions.md R262). -/
def Obligations.FormatErrorIffWrongLength : Prop :=
  ∀ s : State, s.fault = none →
    (∀ t : List Char, s.fetch = some (.text t) →
      (t.length ≠ 32 ↔ hostStep s = (s, .failed .formatError)) ∧
      (t.length = 32 → (hostStep s).2 ≠ .failed .formatError)) ∧
    (∀ w : Word, s.fetch = some (.word w) → (hostStep s).2 ≠ .failed .formatError)

/-- The four operand errors, each exactly where the text passes the earlier checks, the format has the field, a character
of it is not binary, and no field before it in the order rd, rs1, rs2, immediate has such a character; an instruction
exactly where the text is well-formed and its word decodes (R83, R84, R265 to R268; the order is decision D2, log 12). -/
def Obligations.TextErrorsNameTheirField : Prop :=
  ∀ t : List Char,
    (decodeText t = .error .rdError ↔ ∃ g, ReachesOperands t g ∧ RdDefect t g) ∧
    (decodeText t = .error .rs1Error ↔ ∃ g, ReachesOperands t g ∧ ¬ RdDefect t g ∧ Rs1Defect t g) ∧
    (decodeText t = .error .rs2Error ↔
      ∃ g, ReachesOperands t g ∧ ¬ RdDefect t g ∧ ¬ Rs1Defect t g ∧ Rs2Defect t g) ∧
    (decodeText t = .error .immError ↔
      ∃ g, ReachesOperands t g ∧ ¬ RdDefect t g ∧ ¬ Rs1Defect t g ∧ ¬ Rs2Defect t g ∧ ImmDefect t g) ∧
    (∀ i, decodeText t = .ok i ↔ textOk t = true ∧ decode (textWord t) = .ok i)

/-- The checks of a text slot that come before the operands, character for character: FormatError exactly for a length
other than 32, then OpcodeError exactly where characters 25 to 31 are none of the nine opcodes, then FunctError exactly
where the consulted funct characters match no row of R71 to R76 (R70 to R76, R84; decisions D2, D3, D4 and D5, logs 7
and 12). -/
def Obligations.TextOpcodeAndFunctErrors : Prop :=
  ∀ t : List Char,
    (decodeText t = .error .formatError ↔ t.length ≠ 32) ∧
    (t.length = 32 → ∀ g, textGroup t = some g ↔ (g, textField t 25 7) ∈
      [(Group.register, "0110011".toList), (.immediateAlu, "0010011".toList), (.load, "0000011".toList),
        (.jalr, "1100111".toList), (.store, "0100011".toList), (.branch, "1100011".toList), (.lui, "0110111".toList),
        (.auipc, "0010111".toList), (.jal, "1101111".toList)]) ∧
    (decodeText t = .error .opcodeError ↔ t.length = 32 ∧ textGroup t = none) ∧
    (decodeText t = .error .functError ↔ t.length = 32 ∧
      ((textGroup t = some .register ∧ (textField t 17 3, textField t 0 7) ∉
          [("000".toList, "0000000".toList), ("000".toList, "0100000".toList), ("001".toList, "0000000".toList),
            ("010".toList, "0000000".toList), ("011".toList, "0000000".toList), ("100".toList, "0000000".toList),
            ("101".toList, "0000000".toList), ("101".toList, "0100000".toList), ("110".toList, "0000000".toList),
            ("111".toList, "0000000".toList)]) ∨
        (textGroup t = some .immediateAlu ∧
          textField t 17 3 ∉ ["000".toList, "010".toList, "011".toList, "100".toList, "110".toList, "111".toList] ∧
          (textField t 17 3, textField t 0 7) ∉ [("001".toList, "0000000".toList), ("101".toList, "0000000".toList),
            ("101".toList, "0100000".toList)]) ∨
        (textGroup t = some .load ∧
          textField t 17 3 ∉ ["000".toList, "001".toList, "010".toList, "100".toList, "101".toList]) ∨
        (textGroup t = some .jalr ∧ textField t 17 3 ≠ "000".toList) ∨
        (textGroup t = some .store ∧ textField t 17 3 ∉ ["000".toList, "001".toList, "010".toList]) ∨
        (textGroup t = some .branch ∧ textField t 17 3 ∉
          ["000".toList, "001".toList, "100".toList, "101".toList, "110".toList, "111".toList])))

/-- Words written out from the spec's encodings decode to the instructions they stand for (spec/95_test_vectors.md
section 3), one of each format and sub-group. -/
def Obligations.SampleWordsDecode : Prop :=
  decode 0x408489B3#32 = .ok (.sub 19 9 8) ∧ decode 0xFFF00093#32 = .ok (.addi 1 0 4095) ∧
  decode 0x40425393#32 = .ok (.srai 7 4 1028) ∧ decode 0x7FF0A103#32 = .ok (.lw 2 1 2047) ∧
  decode 0x00218067#32 = .ok (.jalr 0 3 2) ∧ decode 0x03D02023#32 = .ok (.sw 0 29 32) ∧
  decode 0xFE000EE3#32 = .ok (.beq 0 0 8188) ∧ decode 0xFFFFF237#32 = .ok (.lui 4 1048575) ∧
  decode 0x0010006F#32 = .ok (.jal 0 2048)

/-! ## The step -/

/-- A step of a machine with no fault latched whose fetched slot decodes to an instruction is `exec` of it, and nothing
is added around it: the pc is the meaning's; the host's outcome is Success where the instruction leaves the latch clear
and the fault it latched where it entered one (spec/40_engine_step.md R100, R104, R105, R106; spec/20_memory.md R47;
spec/60_exceptions.md R269, R270; that the entry on a fault is a next state is the model's choice, log 3). -/
def Obligations.StepRunsDecodedInstruction : Prop :=
  ∀ (s : State) (x : Slot) (i : Instr), s.fault = none → s.program[s.pc.toNat / 4]? = some x → x.decode = .ok i →
    step s = exec i s ∧
    (∀ t : State, exec i s = .next t →
      (t.fault = none → hostStep s = (t, .success)) ∧
      (t.fault = some .memIndexFault → hostStep s = (t, .failed .memIndexFault)) ∧
      (t.fault = some .regIndexFault → hostStep s = (t, .failed .regIndexFault)))

/-- While a fault is latched a step changes nothing and reports the same fault (R101, decision D13, log 11). -/
def Obligations.LatchedFaultIsReportedAgain : Prop :=
  ∀ (s : State) (f : LatchedFault), s.fault = some f → step s = .fault f.report ∧ hostStep s = (s, .failed f.report)

/-- A step is ProgramCounterOutOfBounds exactly when the computed index exceeds the last instruction, and then changes
nothing (R102). -/
def Obligations.PastTheEndIsOutOfBounds : Prop :=
  ∀ s : State, s.fault = none →
    (s.program.length ≤ s.pc.toNat / 4 ↔ hostStep s = (s, .failed .programCounterOutOfBounds))

/-- On a decode error the step returns that error and changes nothing (R103). -/
def Obligations.DecodeErrorChangesNothing : Prop :=
  ∀ (s : State) (x : Slot) (e : DecodeError), s.fault = none → s.program[s.pc.toNat / 4]? = some x →
    x.decode = .error e → step s = .fault (stepError e) ∧ hostStep s = (s, .failed (stepError e))

/-- A step whose outcome is not Success leaves registers, memory, pc and parameters as they were; only the entry on a
fault changes the latch, to the fault it reports (spec/00_scope.md R11; spec/60_exceptions.md R273, R274; decision D13,
logs 3 and 11). -/
def Obligations.FailedStepChangesOnlyTheLatch : Prop :=
  ∀ (s t : State) (r : Report), hostStep s = (t, r) → r ≠ .success →
    (∀ j : RegNum, t.reg j = s.reg j) ∧ (∀ a : Nat, Memory.read t.mem a = Memory.read s.mem a) ∧ t.pc = s.pc ∧
    SameParams s t ∧ (t.fault = s.fault ∨ ∃ f, s.fault = none ∧ t.fault = some f ∧ r = .failed f.report)

/-- After an outcome that is not Success the next step returns the same outcome and changes nothing
(spec/40_engine_step.md R107 and spec/60_exceptions.md R275, which the spec marks derived; log 4). -/
def Obligations.FailureRepeats : Prop :=
  ∀ (s t : State) (r : Report), hostStep s = (t, r) → r ≠ .success → hostStep t = (t, r)

/-- All 37 operations are implemented: `exec` answers a next state for every instruction in every state, and no step has
the outcome of an unimplemented operation (spec/60_exceptions.md R281). That an access or a Jalr out of range answers a
next state is the model's choice (log 3), and so is the name of the outcome that cannot occur (log 15). -/
def Obligations.EveryOperationIsImplemented : Prop :=
  (∀ (i : Instr) (s : State), ∃ t, exec i s = .next t) ∧
  (∀ s : State, (hostStep s).2 ≠ .unimplementedOperation)

/-! ## Frames over all instructions -/

/-- Only the register an instruction names as its destination may change; stores and branches name none
(spec/41_decoder.md R121, spec/10_state.md R23). -/
def Obligations.OnlyDestinationRegisterChanges : Prop :=
  ∀ (i : Instr) (s t : State), exec i s = .next t → ∀ j : RegNum, destReg i ≠ some j → t.reg j = s.reg j

/-- Only the slot a store's effective address names may change; every other instruction leaves all of memory
(spec/20_memory.md R43, R50; spec/46_store.md R210). -/
def Obligations.OnlyStoredSlotChanges : Prop :=
  ∀ (i : Instr) (s t : State), exec i s = .next t →
    ∀ a : Nat, storeSlot s i ≠ some a → Memory.read t.mem a = Memory.read s.mem a

/-- No step changes the program store or the parameter `X0_HARDWIRED` (spec/20_memory.md R52, spec/10_state.md R28; that
both are fields of State is the model's choice, logs 1 and 2). -/
def Obligations.ParametersNeverChange : Prop :=
  ∀ s t : State, step s = .next t → SameParams s t

/-- The two faults: a load or store whose effective address is outside `0 .. 2047` and a Jalr whose target number exceeds
31 set the latch and change nothing else (spec/60_exceptions.md R269, R270, R274, decision D13, logs 3 and 11). -/
def Obligations.IndexFaultsSetTheLatch : Prop :=
  ∀ (i : Instr) (s : State),
    (∀ ea : Int, memAddress s i = some ea → ea < 0 ∨ 2047 < ea →
      ∃ t, exec i s = .next t ∧ EntersFault s t .memIndexFault) ∧
    (∀ n : Nat, jalrNumber i = some n → 31 < n → ∃ t, exec i s = .next t ∧ EntersFault s t .regIndexFault)

/-- Nothing but those two conditions writes the latch (spec/10_state.md R29, R31; decision D13, log 11). -/
def Obligations.LatchUnchangedWithoutIndexFault : Prop :=
  ∀ (i : Instr) (s t : State), exec i s = .next t →
    (∀ ea : Int, memAddress s i = some ea → 0 ≤ ea ∧ ea ≤ 2047) → (∀ n : Nat, jalrNumber i = some n → n ≤ 31) →
    t.fault = s.fault

/-- How a successful step moves the pc: `pc + 4` for every instruction that is no branch, Jal or Jalr; `pc + imm` or
`pc + 4` for a branch or Jal; the value of the target register for Jalr (spec/10_state.md R24; decisions D9 and D12,
log 10). -/
def Obligations.NextPcOfEveryInstruction : Prop :=
  ∀ (i : Instr) (s t : State), exec i s = .next t → s.fault = none → t.fault = none →
    (jumpOffset i = none → jalrNumber i = none → t.pc = s.pc + 4#32) ∧
    (∀ imm : Word, jumpOffset i = some imm → t.pc = s.pc + imm ∨ t.pc = s.pc + 4#32) ∧
    (∀ n : Nat, jalrNumber i = some n → n ≤ 31 ∧ t.pc = s.reg (BitVec.ofNat 5 n))

/-! ## Invariants, reset, host operations -/

/-- Every step keeps the invariant: memory in canonical form over the 2048 slots, register 0 zero while hardwired, the
program within its bound (spec/10_state.md R21, R27; spec/00_scope.md R4; the canonical form, and the program and the
setting as fields of State, are the model's choices, logs 5, 1 and 2). -/
def Obligations.InvariantKeptByEveryStep : Prop :=
  ∀ s t : State, s.Inv → step s = .next t → t.Inv

/-- `construct(program)` gives every piece of state its reset value and the invariant holds there; a program of `2^29`
slots or more is refused (spec/10_state.md R33, spec/70_reset_and_hazards.md R290; decisions D9 and D13). The reset
state of the model is the construction on the empty program with the setting true (the model's choices, logs 1 and 2; the
canonical form in the invariant is log 5). -/
def Obligations.ConstructGivesResetValues : Prop :=
  (∀ (x0 : Bool) (p : List Slot), p.length < 2 ^ 29 → ∃ s, construct x0 p = some s ∧ s.Inv ∧
    (∀ j : RegNum, s.reg j = 0#32) ∧ (∀ a : Nat, Memory.read s.mem a = 0#32) ∧ s.pc = 0#32 ∧ s.fault = none ∧
    s.program = p ∧ s.x0Hardwired = x0) ∧
  (∀ (x0 : Bool) (p : List Slot), 2 ^ 29 ≤ p.length → construct x0 p = none) ∧
  construct true [] = some State.reset

/-- The invariant holds in the reset state. What that state holds beside the reset values of spec/10_state.md section 6 is
the model's choice: the empty program (log 1), the setting true (log 2), the canonical form of memory (log 5). -/
def Obligations.InvariantHoldsAtReset : Prop := State.reset.Inv

/-- Writing register `i` and reading register `j`: while `X0_HARDWIRED` holds, register 0 reads zero and a write to it is
discarded; otherwise register 0 is an ordinary register (spec/10_state.md R21, decision D8, log 2). -/
def Obligations.RegisterWriteThenRead : Prop :=
  ∀ (s : State) (i : RegNum) (v : Word),
    (s.x0Hardwired = true → s.reg 0#5 = 0#32 ∧ s.setReg 0#5 v = s) ∧
    ((s.x0Hardwired = false ∨ i ≠ 0#5) → (s.setReg i v).reg i = v) ∧
    (∀ j : RegNum, j ≠ i → (s.setReg i v).reg j = s.reg j)

/-- The snapshots show the registers and slots as an instruction reads them, element 0 of `registers()` is zero while
hardwired, and a step whose outcome is not Success leaves both snapshots as they were (spec/10_state.md R34; decision
D24). -/
def Obligations.SnapshotsShowTheState : Prop :=
  ∀ s : State,
    (∀ (k : Nat) (hk : k < 32), s.registers[k] = s.reg (BitVec.ofNat 5 k)) ∧
    (s.x0Hardwired = true → s.registers[0] = 0#32) ∧
    (∀ (a : Nat) (ha : a < 2048), s.memory[a] = Memory.read s.mem a) ∧
    ((hostStep s).2 ≠ .success → (hostStep s).1.registers = s.registers ∧ (hostStep s).1.memory = s.memory)

/-- A run ends with an outcome that is not Success, and its final state answers the same outcome again
(spec/40_engine_step.md R108, decision D26; log 4). -/
def Obligations.RunEndsInAStandingFailure : Prop :=
  ∀ (fuel : Nat) (s t : State) (r : Report), hostRun fuel s = (t, some r) → r ≠ .success ∧ hostStep t = (t, r)

/-! ## Register ALU (spec/42_alu_register.md) -/

/-- Add and Sub: the low 32 bits of the exact sum and difference (R153, R154; the wrap-around of R151 is decision D7,
log 8). -/
def Obligations.AddAndSubWrapAround : Prop :=
  ∀ (s : State) (rd rs1 rs2 : RegNum),
    decode (0b0000000#7 ++ rs2 ++ rs1 ++ 0b000#3 ++ rd ++ 0b0110011#7) = .ok (.add rd rs1 rs2) ∧
    (∃ t v, exec (.add rd rs1 rs2) s = .next t ∧ v.toNat = ((s.reg rs1).toNat + (s.reg rs2).toNat) % 2 ^ 32 ∧
      WritesReg s t rd v (s.pc + 4#32)) ∧
    decode (0b0100000#7 ++ rs2 ++ rs1 ++ 0b000#3 ++ rd ++ 0b0110011#7) = .ok (.sub rd rs1 rs2) ∧
    (∃ t v, exec (.sub rd rs1 rs2) s = .next t ∧
      (v.toNat : Int) = (((s.reg rs1).toNat : Int) - ((s.reg rs2).toNat : Int)) % 2 ^ 32 ∧
      WritesReg s t rd v (s.pc + 4#32))

/-- Xor, Or and And, bit by bit (R155, R156, R157). -/
def Obligations.XorOrAndAreBitwise : Prop :=
  ∀ (s : State) (rd rs1 rs2 : RegNum),
    decode (0b0000000#7 ++ rs2 ++ rs1 ++ 0b100#3 ++ rd ++ 0b0110011#7) = .ok (.xor rd rs1 rs2) ∧
    (∃ t v, exec (.xor rd rs1 rs2) s = .next t ∧
      (∀ k, v.getLsbD k = ((s.reg rs1).getLsbD k != (s.reg rs2).getLsbD k)) ∧ WritesReg s t rd v (s.pc + 4#32)) ∧
    decode (0b0000000#7 ++ rs2 ++ rs1 ++ 0b110#3 ++ rd ++ 0b0110011#7) = .ok (.or rd rs1 rs2) ∧
    (∃ t v, exec (.or rd rs1 rs2) s = .next t ∧
      (∀ k, v.getLsbD k = ((s.reg rs1).getLsbD k || (s.reg rs2).getLsbD k)) ∧ WritesReg s t rd v (s.pc + 4#32)) ∧
    decode (0b0000000#7 ++ rs2 ++ rs1 ++ 0b111#3 ++ rd ++ 0b0110011#7) = .ok (.and rd rs1 rs2) ∧
    (∃ t v, exec (.and rd rs1 rs2) s = .next t ∧
      (∀ k, v.getLsbD k = ((s.reg rs1).getLsbD k && (s.reg rs2).getLsbD k)) ∧ WritesReg s t rd v (s.pc + 4#32))

/-- Sll, Srl and Sra, shifting by `x[rs2]` modulo 32 (R158, R159, R160; the amount of R152 is decision D6, log 9): the
low 32 bits of the product, the floor of the unsigned quotient, the floor of the signed quotient. -/
def Obligations.RegisterShifts : Prop :=
  ∀ (s : State) (rd rs1 rs2 : RegNum),
    decode (0b0000000#7 ++ rs2 ++ rs1 ++ 0b001#3 ++ rd ++ 0b0110011#7) = .ok (.sll rd rs1 rs2) ∧
    (∃ t v, exec (.sll rd rs1 rs2) s = .next t ∧
      v.toNat = (s.reg rs1).toNat * 2 ^ ((s.reg rs2).toNat % 32) % 2 ^ 32 ∧ WritesReg s t rd v (s.pc + 4#32)) ∧
    decode (0b0000000#7 ++ rs2 ++ rs1 ++ 0b101#3 ++ rd ++ 0b0110011#7) = .ok (.srl rd rs1 rs2) ∧
    (∃ t v, exec (.srl rd rs1 rs2) s = .next t ∧
      v.toNat = (s.reg rs1).toNat / 2 ^ ((s.reg rs2).toNat % 32) ∧ WritesReg s t rd v (s.pc + 4#32)) ∧
    decode (0b0100000#7 ++ rs2 ++ rs1 ++ 0b101#3 ++ rd ++ 0b0110011#7) = .ok (.sra rd rs1 rs2) ∧
    (∃ t v, exec (.sra rd rs1 rs2) s = .next t ∧
      v.toInt = Int.fdiv (s.reg rs1).toInt (2 ^ ((s.reg rs2).toNat % 32)) ∧ WritesReg s t rd v (s.pc + 4#32))

/-- Slt and Sltu write 1 where the signed or unsigned less-than holds, else 0 (R161, R162). -/
def Obligations.RegisterComparisons : Prop :=
  ∀ (s : State) (rd rs1 rs2 : RegNum),
    decode (0b0000000#7 ++ rs2 ++ rs1 ++ 0b010#3 ++ rd ++ 0b0110011#7) = .ok (.slt rd rs1 rs2) ∧
    (∃ t v, exec (.slt rd rs1 rs2) s = .next t ∧
      v = (if (s.reg rs1).toInt < (s.reg rs2).toInt then 1#32 else 0#32) ∧ WritesReg s t rd v (s.pc + 4#32)) ∧
    decode (0b0000000#7 ++ rs2 ++ rs1 ++ 0b011#3 ++ rd ++ 0b0110011#7) = .ok (.sltu rd rs1 rs2) ∧
    (∃ t v, exec (.sltu rd rs1 rs2) s = .next t ∧
      v = (if (s.reg rs1).toNat < (s.reg rs2).toNat then 1#32 else 0#32) ∧ WritesReg s t rd v (s.pc + 4#32))

/-! ## Immediate ALU (spec/43_alu_immediate.md); `m` is the encoded field, its value `0 .. 4095` -/

/-- Addi adds the non-negative immediate modulo `2^32` (R171; the wrap-around of R151 is decision D7, log 8). -/
def Obligations.AddiAddsMagnitude : Prop :=
  ∀ (s : State) (rd rs1 : RegNum) (m : BitVec 12),
    decode (m ++ rs1 ++ 0b000#3 ++ rd ++ 0b0010011#7) = .ok (.addi rd rs1 (m.setWidth 32)) ∧
    (∃ t v, exec (.addi rd rs1 (m.setWidth 32)) s = .next t ∧ v.toNat = ((s.reg rs1).toNat + m.toNat) % 2 ^ 32 ∧
      WritesReg s t rd v (s.pc + 4#32))

/-- Xori, Ori and Andi: the immediate's bits from 12 on are zero (R172, R173, R174). -/
def Obligations.ImmediateLogic : Prop :=
  ∀ (s : State) (rd rs1 : RegNum) (m : BitVec 12),
    decode (m ++ rs1 ++ 0b100#3 ++ rd ++ 0b0010011#7) = .ok (.xori rd rs1 (m.setWidth 32)) ∧
    (∃ t v, exec (.xori rd rs1 (m.setWidth 32)) s = .next t ∧
      (∀ k, v.getLsbD k = ((s.reg rs1).getLsbD k != m.getLsbD k)) ∧ WritesReg s t rd v (s.pc + 4#32)) ∧
    decode (m ++ rs1 ++ 0b110#3 ++ rd ++ 0b0010011#7) = .ok (.ori rd rs1 (m.setWidth 32)) ∧
    (∃ t v, exec (.ori rd rs1 (m.setWidth 32)) s = .next t ∧
      (∀ k, v.getLsbD k = ((s.reg rs1).getLsbD k || m.getLsbD k)) ∧ WritesReg s t rd v (s.pc + 4#32)) ∧
    decode (m ++ rs1 ++ 0b111#3 ++ rd ++ 0b0010011#7) = .ok (.andi rd rs1 (m.setWidth 32)) ∧
    (∃ t v, exec (.andi rd rs1 (m.setWidth 32)) s = .next t ∧
      (∀ k, v.getLsbD k = ((s.reg rs1).getLsbD k && m.getLsbD k)) ∧ WritesReg s t rd v (s.pc + 4#32))

/-- Slli, Srli and Srai shift by the encoded amount `0 .. 31`; any other `W[31:25]` than Slli's is a FunctError under
Slli's `funct3`; Srai's decoded immediate is `1024 + shamt` (R175, R176, R177; the amount of R152 is decision D6, log 9). -/
def Obligations.ImmediateShifts : Prop :=
  ∀ (s : State) (rd rs1 : RegNum) (n : BitVec 5),
    decode (0b0000000#7 ++ n ++ rs1 ++ 0b001#3 ++ rd ++ 0b0010011#7) = .ok (.slli rd rs1 (n.setWidth 32)) ∧
    (∀ f : BitVec 7, f ≠ 0b0000000#7 →
      decode (f ++ n ++ rs1 ++ 0b001#3 ++ rd ++ 0b0010011#7) = .error .functError) ∧
    (∃ t v, exec (.slli rd rs1 (n.setWidth 32)) s = .next t ∧
      v.toNat = (s.reg rs1).toNat * 2 ^ n.toNat % 2 ^ 32 ∧ WritesReg s t rd v (s.pc + 4#32)) ∧
    decode (0b0000000#7 ++ n ++ rs1 ++ 0b101#3 ++ rd ++ 0b0010011#7) = .ok (.srli rd rs1 (n.setWidth 32)) ∧
    (∃ t v, exec (.srli rd rs1 (n.setWidth 32)) s = .next t ∧
      v.toNat = (s.reg rs1).toNat / 2 ^ n.toNat ∧ WritesReg s t rd v (s.pc + 4#32)) ∧
    decode (0b0100000#7 ++ n ++ rs1 ++ 0b101#3 ++ rd ++ 0b0010011#7) =
      .ok (.srai rd rs1 (1024#32 + n.setWidth 32)) ∧
    (∃ t v, exec (.srai rd rs1 (1024#32 + n.setWidth 32)) s = .next t ∧
      v.toInt = Int.fdiv (s.reg rs1).toInt (2 ^ n.toNat) ∧ WritesReg s t rd v (s.pc + 4#32))

/-- Slti and Sltiu compare with the non-negative immediate `0 .. 4095` (R178, R179). -/
def Obligations.ImmediateComparisons : Prop :=
  ∀ (s : State) (rd rs1 : RegNum) (m : BitVec 12),
    decode (m ++ rs1 ++ 0b010#3 ++ rd ++ 0b0010011#7) = .ok (.slti rd rs1 (m.setWidth 32)) ∧
    (∃ t v, exec (.slti rd rs1 (m.setWidth 32)) s = .next t ∧
      v = (if (s.reg rs1).toInt < (m.toNat : Int) then 1#32 else 0#32) ∧ WritesReg s t rd v (s.pc + 4#32)) ∧
    decode (m ++ rs1 ++ 0b011#3 ++ rd ++ 0b0010011#7) = .ok (.sltiu rd rs1 (m.setWidth 32)) ∧
    (∃ t v, exec (.sltiu rd rs1 (m.setWidth 32)) s = .next t ∧
      v = (if (s.reg rs1).toNat < m.toNat then 1#32 else 0#32) ∧ WritesReg s t rd v (s.pc + 4#32))

/-! ## Loads (spec/44_load.md): `ea = s(x[rs1]) + imm` in unbounded integers is a slot index -/

/-- Lb and Lbu: the slot's low byte, sign- or zero-extended; out of range MemIndexFault with nothing written (R191,
R194; how the fault is entered is log 3). -/
def Obligations.ByteLoads : Prop :=
  ∀ (s : State) (rd rs1 : RegNum) (m : BitVec 12),
    decode (m ++ rs1 ++ 0b000#3 ++ rd ++ 0b0000011#7) = .ok (.lb rd rs1 (m.setWidth 32)) ∧
    decode (m ++ rs1 ++ 0b100#3 ++ rd ++ 0b0000011#7) = .ok (.lbu rd rs1 (m.setWidth 32)) ∧
    (∀ a : Nat, (a : Int) = (s.reg rs1).toInt + (m.toNat : Int) → a ≤ 2047 →
      (∃ t v, exec (.lb rd rs1 (m.setWidth 32)) s = .next t ∧
        v.toInt = Int.bmod ((Memory.read s.mem a).toNat : Int) (2 ^ 8) ∧ WritesReg s t rd v (s.pc + 4#32)) ∧
      (∃ t v, exec (.lbu rd rs1 (m.setWidth 32)) s = .next t ∧ v.toNat = (Memory.read s.mem a).toNat % 2 ^ 8 ∧
        WritesReg s t rd v (s.pc + 4#32))) ∧
    ((s.reg rs1).toInt + (m.toNat : Int) < 0 ∨ 2047 < (s.reg rs1).toInt + (m.toNat : Int) →
      (∃ t, exec (.lb rd rs1 (m.setWidth 32)) s = .next t ∧ EntersFault s t .memIndexFault) ∧
      (∃ t, exec (.lbu rd rs1 (m.setWidth 32)) s = .next t ∧ EntersFault s t .memIndexFault))

/-- Lh and Lhu: the slot's low half, sign- or zero-extended; out of range MemIndexFault with nothing written (R192,
R195; how the fault is entered is log 3). -/
def Obligations.HalfLoads : Prop :=
  ∀ (s : State) (rd rs1 : RegNum) (m : BitVec 12),
    decode (m ++ rs1 ++ 0b001#3 ++ rd ++ 0b0000011#7) = .ok (.lh rd rs1 (m.setWidth 32)) ∧
    decode (m ++ rs1 ++ 0b101#3 ++ rd ++ 0b0000011#7) = .ok (.lhu rd rs1 (m.setWidth 32)) ∧
    (∀ a : Nat, (a : Int) = (s.reg rs1).toInt + (m.toNat : Int) → a ≤ 2047 →
      (∃ t v, exec (.lh rd rs1 (m.setWidth 32)) s = .next t ∧
        v.toInt = Int.bmod ((Memory.read s.mem a).toNat : Int) (2 ^ 16) ∧ WritesReg s t rd v (s.pc + 4#32)) ∧
      (∃ t v, exec (.lhu rd rs1 (m.setWidth 32)) s = .next t ∧ v.toNat = (Memory.read s.mem a).toNat % 2 ^ 16 ∧
        WritesReg s t rd v (s.pc + 4#32))) ∧
    ((s.reg rs1).toInt + (m.toNat : Int) < 0 ∨ 2047 < (s.reg rs1).toInt + (m.toNat : Int) →
      (∃ t, exec (.lh rd rs1 (m.setWidth 32)) s = .next t ∧ EntersFault s t .memIndexFault) ∧
      (∃ t, exec (.lhu rd rs1 (m.setWidth 32)) s = .next t ∧ EntersFault s t .memIndexFault))

/-- Lw: the whole slot; out of range MemIndexFault with nothing written (R193; how the fault is entered is log 3). -/
def Obligations.WordLoad : Prop :=
  ∀ (s : State) (rd rs1 : RegNum) (m : BitVec 12),
    decode (m ++ rs1 ++ 0b010#3 ++ rd ++ 0b0000011#7) = .ok (.lw rd rs1 (m.setWidth 32)) ∧
    (∀ a : Nat, (a : Int) = (s.reg rs1).toInt + (m.toNat : Int) → a ≤ 2047 →
      ∃ t, exec (.lw rd rs1 (m.setWidth 32)) s = .next t ∧
        WritesReg s t rd (Memory.read s.mem a) (s.pc + 4#32)) ∧
    ((s.reg rs1).toInt + (m.toNat : Int) < 0 ∨ 2047 < (s.reg rs1).toInt + (m.toNat : Int) →
      ∃ t, exec (.lw rd rs1 (m.setWidth 32)) s = .next t ∧ EntersFault s t .memIndexFault)

/-! ## Jalr (spec/45_jalr.md) -/

/-- Jalr with a target number `rs1 + imm` up to 31 links `pc + 4` and jumps to the value that register held before the
link was written, bit 0 kept (R200, R202; decisions D11 and D12, log 10). -/
def Obligations.JalrJumpsToNumberedRegister : Prop :=
  ∀ (s : State) (rd rs1 : RegNum) (m : BitVec 12),
    decode (m ++ rs1 ++ 0b000#3 ++ rd ++ 0b1100111#7) = .ok (.jalr rd rs1 (m.setWidth 32)) ∧
    (∀ j : RegNum, j.toNat = rs1.toNat + m.toNat →
      ∃ t, exec (.jalr rd rs1 (m.setWidth 32)) s = .next t ∧ WritesReg s t rd (s.pc + 4#32) (s.reg j))

/-- Jalr with a target number above 31 raises RegIndexFault; `rd` and the pc are not written (R201; decision D13,
logs 3 and 11). -/
def Obligations.JalrBeyondTheRegisterFileFaults : Prop :=
  ∀ (s : State) (rd rs1 : RegNum) (m : BitVec 12), 31 < rs1.toNat + m.toNat →
    ∃ t, exec (.jalr rd rs1 (m.setWidth 32)) s = .next t ∧ EntersFault s t .regIndexFault

/-! ## Stores (spec/46_store.md); `m` is the 12-bit offset -/

/-- Sb, Sh and Sw: the low 8, 16 or 32 bits of the one slot replaced, its high bits kept; out of range MemIndexFault with
nothing written (R211, R212, R213; how the fault is entered is log 3). The premise on memory is an invariant
(InvariantKeptByEveryStep): the canonical form, which is the model's choice (log 5). -/
def Obligations.StoresReplaceLowBits : Prop :=
  ∀ (s : State) (rs1 rs2 : RegNum) (m : BitVec 12), Memory.wf s.mem →
    decode (m.extractLsb' 5 7 ++ rs2 ++ rs1 ++ 0b000#3 ++ m.extractLsb' 0 5 ++ 0b0100011#7) =
      .ok (.sb rs1 rs2 (m.setWidth 32)) ∧
    decode (m.extractLsb' 5 7 ++ rs2 ++ rs1 ++ 0b001#3 ++ m.extractLsb' 0 5 ++ 0b0100011#7) =
      .ok (.sh rs1 rs2 (m.setWidth 32)) ∧
    decode (m.extractLsb' 5 7 ++ rs2 ++ rs1 ++ 0b010#3 ++ m.extractLsb' 0 5 ++ 0b0100011#7) =
      .ok (.sw rs1 rs2 (m.setWidth 32)) ∧
    (∀ a : Nat, (a : Int) = (s.reg rs1).toInt + (m.toNat : Int) → a ≤ 2047 →
      (∃ t v, exec (.sb rs1 rs2 (m.setWidth 32)) s = .next t ∧
        v.toNat = (Memory.read s.mem a).toNat / 2 ^ 8 * 2 ^ 8 + (s.reg rs2).toNat % 2 ^ 8 ∧ WritesSlot s t a v) ∧
      (∃ t v, exec (.sh rs1 rs2 (m.setWidth 32)) s = .next t ∧
        v.toNat = (Memory.read s.mem a).toNat / 2 ^ 16 * 2 ^ 16 + (s.reg rs2).toNat % 2 ^ 16 ∧ WritesSlot s t a v) ∧
      (∃ t, exec (.sw rs1 rs2 (m.setWidth 32)) s = .next t ∧ WritesSlot s t a (s.reg rs2))) ∧
    ((s.reg rs1).toInt + (m.toNat : Int) < 0 ∨ 2047 < (s.reg rs1).toInt + (m.toNat : Int) →
      (∃ t, exec (.sb rs1 rs2 (m.setWidth 32)) s = .next t ∧ EntersFault s t .memIndexFault) ∧
      (∃ t, exec (.sh rs1 rs2 (m.setWidth 32)) s = .next t ∧ EntersFault s t .memIndexFault) ∧
      (∃ t, exec (.sw rs1 rs2 (m.setWidth 32)) s = .next t ∧ EntersFault s t .memIndexFault))

/-- A load of a slot right after a store to it sees the store, for each of the three stores and each of the five loads:
after Sw the slot holds the stored word, after Sh or Sb the old high bits over the stored half or byte (spec/20_memory.md
R43, R44, R50; decisions D17 and D18). The premise on memory is the canonical form (log 5), which every step keeps. -/
def Obligations.LoadsSeeTheLastStore : Prop :=
  ∀ (s t : State) (rs1 rs2 rd rb : RegNum) (imm off : Word) (a : Nat), Memory.wf s.mem →
    slotOf (s.ea rs1 imm) = some a → slotOf (t.ea rb off) = some a →
    (exec (.sw rs1 rs2 imm) s = .next t → LoadsSee t rd rb off (s.reg rs2)) ∧
    (exec (.sh rs1 rs2 imm) s = .next t →
      LoadsSee t rd rb off ((Memory.read s.mem a &&& 0xFFFF0000#32) ||| (s.reg rs2 &&& 0x0000FFFF#32))) ∧
    (exec (.sb rs1 rs2 imm) s = .next t →
      LoadsSee t rd rb off ((Memory.read s.mem a &&& 0xFFFFFF00#32) ||| (s.reg rs2 &&& 0x000000FF#32)))

/-! ## Branches (spec/47_branch.md); `b` holds the bits 12..1 of the offset -/

/-- Beq and Bne: `pc + imm` where the 32-bit patterns are equal (not equal), else `pc + 4`; nothing else changes (R221,
R222). -/
def Obligations.EqualityBranches : Prop :=
  ∀ (s : State) (rs1 rs2 : RegNum) (b : BitVec 12),
    decode (b.extractLsb' 11 1 ++ b.extractLsb' 4 6 ++ rs2 ++ rs1 ++ 0b000#3 ++ b.extractLsb' 0 4 ++ b.extractLsb' 10 1 ++
      0b1100011#7) = .ok (.beq rs1 rs2 ((b ++ 0#1).setWidth 32)) ∧
    decode (b.extractLsb' 11 1 ++ b.extractLsb' 4 6 ++ rs2 ++ rs1 ++ 0b001#3 ++ b.extractLsb' 0 4 ++ b.extractLsb' 10 1 ++
      0b1100011#7) = .ok (.bne rs1 rs2 ((b ++ 0#1).setWidth 32)) ∧
    (∃ t, exec (.beq rs1 rs2 ((b ++ 0#1).setWidth 32)) s = .next t ∧
      OnlyPc s t (if s.reg rs1 = s.reg rs2 then s.pc + BitVec.ofNat 32 (2 * b.toNat) else s.pc + 4#32)) ∧
    (∃ t, exec (.bne rs1 rs2 ((b ++ 0#1).setWidth 32)) s = .next t ∧
      OnlyPc s t (if s.reg rs1 ≠ s.reg rs2 then s.pc + BitVec.ofNat 32 (2 * b.toNat) else s.pc + 4#32))

/-- Blt and Bge compare the signed values (R223, R224). -/
def Obligations.SignedBranches : Prop :=
  ∀ (s : State) (rs1 rs2 : RegNum) (b : BitVec 12),
    decode (b.extractLsb' 11 1 ++ b.extractLsb' 4 6 ++ rs2 ++ rs1 ++ 0b100#3 ++ b.extractLsb' 0 4 ++ b.extractLsb' 10 1 ++
      0b1100011#7) = .ok (.blt rs1 rs2 ((b ++ 0#1).setWidth 32)) ∧
    decode (b.extractLsb' 11 1 ++ b.extractLsb' 4 6 ++ rs2 ++ rs1 ++ 0b101#3 ++ b.extractLsb' 0 4 ++ b.extractLsb' 10 1 ++
      0b1100011#7) = .ok (.bge rs1 rs2 ((b ++ 0#1).setWidth 32)) ∧
    (∃ t, exec (.blt rs1 rs2 ((b ++ 0#1).setWidth 32)) s = .next t ∧
      OnlyPc s t (if (s.reg rs1).toInt < (s.reg rs2).toInt then s.pc + BitVec.ofNat 32 (2 * b.toNat)
        else s.pc + 4#32)) ∧
    (∃ t, exec (.bge rs1 rs2 ((b ++ 0#1).setWidth 32)) s = .next t ∧
      OnlyPc s t (if (s.reg rs1).toInt ≥ (s.reg rs2).toInt then s.pc + BitVec.ofNat 32 (2 * b.toNat)
        else s.pc + 4#32))

/-- Bltu and Bgeu compare the unsigned values (R225, R226). -/
def Obligations.UnsignedBranches : Prop :=
  ∀ (s : State) (rs1 rs2 : RegNum) (b : BitVec 12),
    decode (b.extractLsb' 11 1 ++ b.extractLsb' 4 6 ++ rs2 ++ rs1 ++ 0b110#3 ++ b.extractLsb' 0 4 ++ b.extractLsb' 10 1 ++
      0b1100011#7) = .ok (.bltu rs1 rs2 ((b ++ 0#1).setWidth 32)) ∧
    decode (b.extractLsb' 11 1 ++ b.extractLsb' 4 6 ++ rs2 ++ rs1 ++ 0b111#3 ++ b.extractLsb' 0 4 ++ b.extractLsb' 10 1 ++
      0b1100011#7) = .ok (.bgeu rs1 rs2 ((b ++ 0#1).setWidth 32)) ∧
    (∃ t, exec (.bltu rs1 rs2 ((b ++ 0#1).setWidth 32)) s = .next t ∧
      OnlyPc s t (if (s.reg rs1).toNat < (s.reg rs2).toNat then s.pc + BitVec.ofNat 32 (2 * b.toNat)
        else s.pc + 4#32)) ∧
    (∃ t, exec (.bgeu rs1 rs2 ((b ++ 0#1).setWidth 32)) s = .next t ∧
      OnlyPc s t (if (s.reg rs1).toNat ≥ (s.reg rs2).toNat then s.pc + BitVec.ofNat 32 (2 * b.toNat)
        else s.pc + 4#32))

/-! ## Upper immediates and Jal (spec/48_upper_immediate.md, spec/49_jump.md) -/

/-- Lui: the 20-bit immediate shifted left by 12 (R240, whose reading of the pattern is decision D7, log 8). -/
def Obligations.LuiShiftsBy12 : Prop :=
  ∀ (s : State) (rd : RegNum) (m : BitVec 20),
    decode (m ++ rd ++ 0b0110111#7) = .ok (.lui rd (m.setWidth 32)) ∧
    (∃ t v, exec (.lui rd (m.setWidth 32)) s = .next t ∧ v.toNat = m.toNat * 2 ^ 12 ∧
      WritesReg s t rd v (s.pc + 4#32))

/-- Auipc: the unrounded pc of the Auipc plus the shifted immediate, modulo `2^32` (R241; the wrap-around of R151 is
decision D7, log 8). -/
def Obligations.AuipcAddsToThePc : Prop :=
  ∀ (s : State) (rd : RegNum) (m : BitVec 20),
    decode (m ++ rd ++ 0b0010111#7) = .ok (.auipc rd (m.setWidth 32)) ∧
    (∃ t v, exec (.auipc rd (m.setWidth 32)) s = .next t ∧ v.toNat = (s.pc.toNat + m.toNat * 2 ^ 12) % 2 ^ 32 ∧
      WritesReg s t rd v (s.pc + 4#32))

/-- Jal: `rd` receives `pc + 4` and the pc `pc + imm`, both from the Jal's own pc; `b` holds the bits 20..1 of the offset
(R250; the wrap-around of R151 is decision D7, log 8). -/
def Obligations.JalLinksAndJumps : Prop :=
  ∀ (s : State) (rd : RegNum) (b : BitVec 20),
    decode (b.extractLsb' 19 1 ++ b.extractLsb' 0 10 ++ b.extractLsb' 10 1 ++ b.extractLsb' 11 8 ++ rd ++ 0b1101111#7) =
      .ok (.jal rd ((b ++ 0#1).setWidth 32)) ∧
    (∃ t, exec (.jal rd ((b ++ 0#1).setWidth 32)) s = .next t ∧
      WritesReg s t rd (s.pc + 4#32) (s.pc + BitVec.ofNat 32 (2 * b.toNat)))

/-! ## The whole machine -/

/-- Only Jalr moves the pc backwards: from a pc below `2^31` every other well-formed instruction leaves it the same or
greater (spec/30_encoding.md R68, spec/45_jalr.md R203, which the spec marks derived). -/
def Obligations.OnlyJalrGoesBackwards : Prop :=
  ∀ (i : Instr) (s t : State), i.wf = true → jalrNumber i = none → s.pc.toNat < 2 ^ 31 → exec i s = .next t →
    s.pc.toNat ≤ t.pc.toNat

/-- With the program within its bound, the pc of an instruction that is fetched is below `2^31 - 4`, and neither `pc + 4`
nor the offset of a well-formed branch or Jal wraps (spec/10_state.md R26, which the spec marks derived; decision D9,
log 10). -/
def Obligations.FetchedPcNeverWraps : Prop :=
  ∀ (s : State) (x : Slot), s.program.length < 2 ^ 29 → s.fetch = some x →
    s.pc.toNat < 2 ^ 31 - 4 ∧ (s.pc + 4#32).toNat = s.pc.toNat + 4 ∧ 0 ≤ (s.pc + 4#32).toInt ∧
    (∀ (i : Instr) (imm : Word), i.wf = true → jumpOffset i = some imm →
      (s.pc + imm).toNat = s.pc.toNat + imm.toNat)

/-- No instruction can observe the program store: executing it over another program gives the same state but for the
program (spec/20_memory.md R40, R52). -/
def Obligations.ExecutionCannotReadTheProgram : Prop :=
  ∀ (i : Instr) (s t : State) (p : List Slot), exec i s = .next t →
    exec i { s with program := p } = .next { t with program := p }

/-- The two settings of `X0_HARDWIRED` agree on every run of a program that never names register 0 as a destination: same
outcome, same state but for the setting (spec/10_state.md R21, a sentence the spec marks derived; decision D8, log 2). -/
def Obligations.SettingsAgreeWhenX0IsNeverWritten : Prop :=
  ∀ (fuel : Nat) (s : State) (b c : Bool), s.regs[0] = 0#32 →
    (∀ x ∈ s.program, ∀ i, x.decode = .ok i → destReg i ≠ some 0#5) →
    (hostRun fuel { s with x0Hardwired := b }).2 = (hostRun fuel { s with x0Hardwired := c }).2 ∧
    (hostRun fuel { s with x0Hardwired := b }).1 =
      { (hostRun fuel { s with x0Hardwired := c }).1 with x0Hardwired := b }

/-- Stores never change what is fetched: along any run from a state with the invariant, every state holds the program
and the setting the run began with, and keeps the invariant (spec/20_memory.md R52, spec/10_state.md R28). The canonical
form in the invariant, and the program and the setting as fields of State, are the model's choices (logs 5, 1 and 2). -/
def Obligations.RunsKeepProgramAndInvariant : Prop :=
  ∀ (n : Nat) (s t : State), s.Inv → core.run n s = .next t → SameParams s t ∧ t.Inv
end

