-- ==== Sys2Proof/Laws/Decode.lean ====
section
/-! SUPPORT. The small lemmas of the decoder and the encoder: what each field and each immediate of an encoded word is. -/

namespace Sys2Proof

variable (funct7 : BitVec 7) (rs2 rs1 : RegNum) (funct3 : BitVec 3) (rd : RegNum) (op : BitVec 7) (imm : Word)

/-! ## The fields of a word laid out as the R format -/

theorem opcodeField_encR : opcodeField (encR funct7 rs2 rs1 funct3 rd op) = op := by
  unfold opcodeField encR
  apply BitVec.eq_of_getLsbD_eq
  intro k hk
  simp only [BitVec.getLsbD_extractLsb', BitVec.getLsbD_append]
  interval_cases k <;> simp

theorem rdField_encR : rdField (encR funct7 rs2 rs1 funct3 rd op) = rd := by
  unfold rdField encR
  apply BitVec.eq_of_getLsbD_eq
  intro k hk
  simp only [BitVec.getLsbD_extractLsb', BitVec.getLsbD_append]
  interval_cases k <;> simp

theorem funct3Field_encR : funct3Field (encR funct7 rs2 rs1 funct3 rd op) = funct3 := by
  unfold funct3Field encR
  apply BitVec.eq_of_getLsbD_eq
  intro k hk
  simp only [BitVec.getLsbD_extractLsb', BitVec.getLsbD_append]
  interval_cases k <;> simp

theorem rs1Field_encR : rs1Field (encR funct7 rs2 rs1 funct3 rd op) = rs1 := by
  unfold rs1Field encR
  apply BitVec.eq_of_getLsbD_eq
  intro k hk
  simp only [BitVec.getLsbD_extractLsb', BitVec.getLsbD_append]
  interval_cases k <;> simp

theorem rs2Field_encR : rs2Field (encR funct7 rs2 rs1 funct3 rd op) = rs2 := by
  unfold rs2Field encR
  apply BitVec.eq_of_getLsbD_eq
  intro k hk
  simp only [BitVec.getLsbD_extractLsb', BitVec.getLsbD_append]
  interval_cases k <;> simp

theorem funct7Field_encR : funct7Field (encR funct7 rs2 rs1 funct3 rd op) = funct7 := by
  unfold funct7Field encR
  apply BitVec.eq_of_getLsbD_eq
  intro k hk
  simp only [BitVec.getLsbD_extractLsb', BitVec.getLsbD_append]
  interval_cases k <;> simp

/-! ## The other formats are the R layout with other values in its fields (R62) -/

theorem encI_eq_encR :
    encI imm rs1 funct3 rd op = encR (imm.extractLsb' 5 7) (imm.extractLsb' 0 5) rs1 funct3 rd op := by
  unfold encI encR
  apply BitVec.eq_of_getLsbD_eq
  intro k hk
  simp only [BitVec.getLsbD_extractLsb', BitVec.getLsbD_append]
  interval_cases k <;> simp

theorem encS_eq_encR :
    encS imm rs2 rs1 funct3 op = encR (imm.extractLsb' 5 7) rs2 rs1 funct3 (imm.extractLsb' 0 5) op := rfl

theorem encB_eq_encR :
    encB imm rs2 rs1 funct3 op = encR (imm.extractLsb' 12 1 ++ imm.extractLsb' 5 6) rs2 rs1 funct3
      (imm.extractLsb' 1 4 ++ imm.extractLsb' 11 1) op := by
  unfold encB encR
  apply BitVec.eq_of_getLsbD_eq
  intro k hk
  simp only [BitVec.getLsbD_extractLsb', BitVec.getLsbD_append]
  interval_cases k <;> simp

theorem encU_eq_encR :
    encU imm rd op = encR (imm.extractLsb' 13 7) (imm.extractLsb' 8 5) (imm.extractLsb' 3 5) (imm.extractLsb' 0 3) rd
      op := by
  unfold encU encR
  apply BitVec.eq_of_getLsbD_eq
  intro k hk
  simp only [BitVec.getLsbD_extractLsb', BitVec.getLsbD_append]
  interval_cases k <;> simp

theorem encJ_eq_encR :
    encJ imm rd op = encR (imm.extractLsb' 20 1 ++ imm.extractLsb' 5 6) (imm.extractLsb' 1 4 ++ imm.extractLsb' 11 1)
      (imm.extractLsb' 15 5) (imm.extractLsb' 12 3) rd op := by
  unfold encJ encR
  apply BitVec.eq_of_getLsbD_eq
  intro k hk
  simp only [BitVec.getLsbD_extractLsb', BitVec.getLsbD_append]
  interval_cases k <;> simp

/-! ## Immediates read back -/

/-- A word below `2 ^ n` has no bit from `n` on. -/
theorem getLsbD_of_lt {n : Nat} (h : imm.toNat < 2 ^ n) {k : Nat} (hk : n ≤ k) : imm.getLsbD k = false := by
  rw [← BitVec.testBit_toNat]
  exact Nat.testBit_lt_two_pow (lt_of_lt_of_le h (Nat.pow_le_pow_right (by decide) hk))

/-- An even word has no bit 0. -/
theorem getLsbD_zero_of_even (h : imm.toNat % 2 = 0) : imm.getLsbD 0 = false := by
  rw [← BitVec.testBit_toNat, Nat.testBit_zero]; simp [h]

theorem immI_encI (h : imm.toNat < 2 ^ 12) : immI (encI imm rs1 funct3 rd op) = imm := by
  have hb := @getLsbD_of_lt imm 12 h
  unfold encI immI
  apply BitVec.eq_of_getLsbD_eq
  intro k hk
  simp only [BitVec.getLsbD_extractLsb', BitVec.getLsbD_append, BitVec.getLsbD_setWidth]
  interval_cases k <;> simp [-BitVec.getLsbD_eq_getElem, hb]

theorem immS_encS (h : imm.toNat < 2 ^ 12) : immS (encS imm rs2 rs1 funct3 op) = imm := by
  have hb := @getLsbD_of_lt imm 12 h
  unfold encS immS
  apply BitVec.eq_of_getLsbD_eq
  intro k hk
  simp only [BitVec.getLsbD_extractLsb', BitVec.getLsbD_append, BitVec.getLsbD_setWidth]
  interval_cases k <;> simp [-BitVec.getLsbD_eq_getElem, hb]

theorem immB_encB (h : imm.toNat < 2 ^ 13) (h0 : imm.toNat % 2 = 0) : immB (encB imm rs2 rs1 funct3 op) = imm := by
  have hb := @getLsbD_of_lt imm 13 h
  have hz := getLsbD_zero_of_even imm h0
  unfold encB immB
  apply BitVec.eq_of_getLsbD_eq
  intro k hk
  simp only [BitVec.getLsbD_extractLsb', BitVec.getLsbD_append, BitVec.getLsbD_setWidth]
  interval_cases k <;> simp [-BitVec.getLsbD_eq_getElem, hb, hz]

theorem immU_encU (h : imm.toNat < 2 ^ 20) : immU (encU imm rd op) = imm := by
  have hb := @getLsbD_of_lt imm 20 h
  unfold encU immU
  apply BitVec.eq_of_getLsbD_eq
  intro k hk
  simp only [BitVec.getLsbD_extractLsb', BitVec.getLsbD_append, BitVec.getLsbD_setWidth]
  interval_cases k <;> simp [-BitVec.getLsbD_eq_getElem, hb]

theorem immJ_encJ (h : imm.toNat < 2 ^ 21) (h0 : imm.toNat % 2 = 0) : immJ (encJ imm rd op) = imm := by
  have hb := @getLsbD_of_lt imm 21 h
  have hz := getLsbD_zero_of_even imm h0
  unfold encJ immJ
  apply BitVec.eq_of_getLsbD_eq
  intro k hk
  simp only [BitVec.getLsbD_extractLsb', BitVec.getLsbD_append, BitVec.getLsbD_setWidth]
  interval_cases k <;> simp [-BitVec.getLsbD_eq_getElem, hb, hz]

/-- The top seven bits of a shift's immediate select the operation: zero for Slli and Srli (R72). -/
theorem extract_shamt (h : imm.toNat < 32) : imm.extractLsb' 5 7 = 0b0000000#7 := by
  apply BitVec.eq_of_toNat_eq
  simp only [BitVec.extractLsb'_toNat, Nat.shiftRight_eq_div_pow, BitVec.toNat_ofNat]
  omega

/-- The top seven bits of Srai's immediate (R72). -/
theorem extract_srai (h : 1024 ≤ imm.toNat ∧ imm.toNat ≤ 1055) : imm.extractLsb' 5 7 = 0b0100000#7 := by
  apply BitVec.eq_of_toNat_eq
  simp only [BitVec.extractLsb'_toNat, Nat.shiftRight_eq_div_pow, BitVec.toNat_ofNat]
  omega

/-! ## The masks of the opcode table over the R layout -/

theorem encR_and_functMask :
    encR funct7 rs2 rs1 funct3 rd op &&& 0xFE00707F#32 = encR funct7 0#5 0#5 funct3 0#5 op := by
  unfold encR
  apply BitVec.eq_of_getLsbD_eq
  intro k hk
  simp only [BitVec.getLsbD_and, BitVec.getLsbD_append]
  interval_cases k <;> simp

theorem encR_and_funct3Mask :
    encR funct7 rs2 rs1 funct3 rd op &&& 0x0000707F#32 = encR 0#7 0#5 0#5 funct3 0#5 op := by
  unfold encR
  apply BitVec.eq_of_getLsbD_eq
  intro k hk
  simp only [BitVec.getLsbD_and, BitVec.getLsbD_append]
  interval_cases k <;> simp

theorem encR_and_opcodeMask :
    encR funct7 rs2 rs1 funct3 rd op &&& 0x0000007F#32 = encR 0#7 0#5 0#5 0#3 0#5 op := by
  unfold encR
  apply BitVec.eq_of_getLsbD_eq
  intro k hk
  simp only [BitVec.getLsbD_and, BitVec.getLsbD_append]
  interval_cases k <;> simp

end Sys2Proof
end

