-- ==== Sys2Proof/Laws/Memory.lean ====
section
/-! SUPPORT. The laws of the data memory: a read after a write, and the canonical form every operation keeps. -/

namespace Sys2Proof.Machine

/-- Every slot listed lies above `a`. -/
abbrev Memory.above (a : Nat) (m : Memory) : Prop := ∀ c ∈ m, a < c.1

theorem Memory.wf_nil : Memory.wf [] := by simp [Memory.wf]

theorem Memory.wf_cons_iff (k : Nat) (w : Word) (m : Memory) :
    Memory.wf ((k, w) :: m) ↔ Memory.above k m ∧ k < Config.memSlots ∧ w ≠ 0#32 ∧ Memory.wf m := by
  simp only [Memory.wf, Memory.above, List.pairwise_cons, List.forall_mem_cons]
  tauto

theorem Memory.read_of_above {a : Nat} {m : Memory} (h : Memory.above a m) : Memory.read m a = 0#32 := by
  induction m with
  | nil => rfl
  | cons c m ih =>
    obtain ⟨k, w⟩ := c
    have hk : a < k := h (k, w) (by simp)
    simp only [Memory.read]
    rw [if_neg (by omega)]
    exact ih (fun c hc => h c (List.mem_cons_of_mem _ hc))

theorem Memory.read_cons (k : Nat) (v : Word) (m : Memory) (hm : Memory.above k m) (b : Nat) :
    Memory.read (Memory.cons k v m) b = if b = k then v else Memory.read m b := by
  unfold Memory.cons
  split
  next hv =>
    split
    next hb => subst hb; rw [Memory.read_of_above hm, hv]
    next => rfl
  next => rfl

/-- The one spec lemma of `Memory.write`: the slot written holds the word, every other slot is as before. -/
theorem Memory.read_write {m : Memory} (h : Memory.wf m) (a : Nat) (v : Word) (b : Nat) :
    Memory.read (Memory.write m a v) b = if b = a then v else Memory.read m b := by
  induction m with
  | nil => exact Memory.read_cons a v [] (by simp [Memory.above]) b
  | cons c m ih =>
    obtain ⟨k, w⟩ := c
    obtain ⟨hab, -, -, hm⟩ := (Memory.wf_cons_iff k w m).1 h
    simp only [Memory.write]
    split
    next hlt =>
      refine Memory.read_cons a v _ (fun c hc => ?_) b
      rcases List.mem_cons.1 hc with rfl | hc
      · exact hlt
      · exact lt_trans hlt (hab c hc)
    next hnlt =>
      split
      next heq =>
        subst heq
        rw [Memory.read_cons a v m hab b]
        by_cases hb : b = a <;> simp [Memory.read, hb]
      next hne =>
        simp only [Memory.read, ih hm]
        by_cases hb : b = a
        · simp [hb, hne]
        · simp [hb]

theorem Memory.read_write_same {m : Memory} (h : Memory.wf m) (a : Nat) (v : Word) :
    Memory.read (Memory.write m a v) a = v := by simp [Memory.read_write h]

/-- A write leaves every other slot as before, in any memory. -/
theorem Memory.read_write_other (m : Memory) {a b : Nat} (hb : b ≠ a) (v : Word) :
    Memory.read (Memory.write m a v) b = Memory.read m b := by
  have hc : ∀ r : Memory, Memory.read (Memory.cons a v r) b = Memory.read r b := fun r => by
    unfold Memory.cons; split
    · rfl
    · simp [Memory.read, hb]
  induction m with
  | nil => exact hc []
  | cons c m ih =>
    obtain ⟨k, w⟩ := c
    simp only [Memory.write]
    split
    next => exact hc _
    next =>
      split
      next heq => subst heq; rw [hc m]; simp [Memory.read, hb]
      next => simp only [Memory.read, ih]

theorem Memory.wf_cons {k : Nat} {v : Word} {m : Memory} (hab : Memory.above k m) (hk : k < Config.memSlots)
    (hm : Memory.wf m) : Memory.wf (Memory.cons k v m) := by
  unfold Memory.cons
  split
  · exact hm
  · exact (Memory.wf_cons_iff _ _ _).2 ⟨hab, hk, ‹_›, hm⟩

theorem Memory.above_cons {j k : Nat} {v : Word} {m : Memory} (hjk : j < k) (h : Memory.above j m) :
    Memory.above j (Memory.cons k v m) := by
  unfold Memory.cons
  split
  · exact h
  · exact List.forall_mem_cons.2 ⟨hjk, h⟩

theorem Memory.above_write {j : Nat} {m : Memory} (h : Memory.above j m) {a : Nat} (ha : j < a) (v : Word) :
    Memory.above j (Memory.write m a v) := by
  induction m with
  | nil => exact Memory.above_cons ha h
  | cons c m ih =>
    obtain ⟨k, w⟩ := c
    have hk := h (k, w) (by simp)
    have hm : Memory.above j m := fun c hc => h c (List.mem_cons_of_mem _ hc)
    simp only [Memory.write]
    split
    · exact Memory.above_cons ha h
    · split
      · exact Memory.above_cons ha hm
      · exact List.forall_mem_cons.2 ⟨hk, ih hm⟩

/-- A write to an existing slot keeps the canonical form. -/
theorem Memory.wf_write {m : Memory} (h : Memory.wf m) {a : Nat} (ha : a < Config.memSlots) (v : Word) :
    Memory.wf (Memory.write m a v) := by
  induction m with
  | nil => exact Memory.wf_cons (by simp [Memory.above]) ha Memory.wf_nil
  | cons c m ih =>
    obtain ⟨k, w⟩ := c
    obtain ⟨hab, hk, hw, hm⟩ := (Memory.wf_cons_iff k w m).1 h
    simp only [Memory.write]
    split
    next hlt =>
      refine Memory.wf_cons (fun c hc => ?_) ha h
      rcases List.mem_cons.1 hc with rfl | hc
      · exact hlt
      · exact lt_trans hlt (hab c hc)
    next hnlt =>
      split
      next heq => subst heq; exact Memory.wf_cons hab ha hm
      next hne =>
        exact (Memory.wf_cons_iff _ _ _).2 ⟨Memory.above_write hab (by omega) v, hk, hw, ih hm⟩

theorem slotOf_eq_some {ea : Int} {a : Nat} : slotOf ea = some a ↔ (a : Int) = ea ∧ a < Config.memSlots := by
  unfold slotOf Config.memSlots
  split
  · simp only [Option.some.injEq]; omega
  · simp only [reduceCtorEq, false_iff]; omega

theorem slotOf_eq_none {ea : Int} : slotOf ea = none ↔ ea < 0 ∨ 2047 < ea := by
  unfold slotOf
  split <;> simp <;> omega

theorem slotOf_lt {ea : Int} {a : Nat} (h : slotOf ea = some a) : a < Config.memSlots := (slotOf_eq_some.1 h).2

end Sys2Proof.Machine
end

