-- ==== Sys2Proof/Laws/State.lean ====
section
/-! SUPPORT. One lemma per field per update of the state, so that no proof unfolds a record update. -/

namespace Sys2Proof.Machine

variable (s : State) (i : RegNum) (v t : Word) (f : LatchedFault) (w : Word)

/-! ## setReg -/

@[simp] theorem State.setReg_pc : (s.setReg i v).pc = s.pc := by unfold State.setReg; split <;> rfl
@[simp] theorem State.setReg_mem : (s.setReg i v).mem = s.mem := by unfold State.setReg; split <;> rfl
@[simp] theorem State.setReg_fault : (s.setReg i v).fault = s.fault := by unfold State.setReg; split <;> rfl
@[simp] theorem State.setReg_program : (s.setReg i v).program = s.program := by unfold State.setReg; split <;> rfl
@[simp] theorem State.setReg_x0Hardwired : (s.setReg i v).x0Hardwired = s.x0Hardwired := by
  unfold State.setReg; split <;> rfl

/-! ## setPc and advance -/

@[simp] theorem State.setPc_regs : (s.setPc t).regs = s.regs := rfl
@[simp] theorem State.setPc_pc : (s.setPc t).pc = t := rfl
@[simp] theorem State.setPc_mem : (s.setPc t).mem = s.mem := rfl
@[simp] theorem State.setPc_fault : (s.setPc t).fault = s.fault := rfl
@[simp] theorem State.setPc_program : (s.setPc t).program = s.program := rfl
@[simp] theorem State.setPc_x0Hardwired : (s.setPc t).x0Hardwired = s.x0Hardwired := rfl
@[simp] theorem State.setPc_reg : (s.setPc t).reg i = s.reg i := rfl

@[simp] theorem State.advance_regs : s.advance.regs = s.regs := rfl
@[simp] theorem State.advance_pc : s.advance.pc = s.pc + 4#32 := rfl
@[simp] theorem State.advance_mem : s.advance.mem = s.mem := rfl
@[simp] theorem State.advance_fault : s.advance.fault = s.fault := rfl
@[simp] theorem State.advance_program : s.advance.program = s.program := rfl
@[simp] theorem State.advance_x0Hardwired : s.advance.x0Hardwired = s.x0Hardwired := rfl
@[simp] theorem State.advance_reg : s.advance.reg i = s.reg i := rfl

@[simp] theorem State.nextPc_eq : s.nextPc = s.pc + 4#32 := rfl

/-! ## takeFault -/

@[simp] theorem State.takeFault_regs : (s.takeFault f).regs = s.regs := rfl
@[simp] theorem State.takeFault_pc : (s.takeFault f).pc = s.pc := rfl
@[simp] theorem State.takeFault_mem : (s.takeFault f).mem = s.mem := rfl
@[simp] theorem State.takeFault_fault : (s.takeFault f).fault = some f := rfl
@[simp] theorem State.takeFault_program : (s.takeFault f).program = s.program := rfl
@[simp] theorem State.takeFault_x0Hardwired : (s.takeFault f).x0Hardwired = s.x0Hardwired := rfl
@[simp] theorem State.takeFault_reg : (s.takeFault f).reg i = s.reg i := rfl

/-! ## placeWord -/

@[simp] theorem State.placeWord_regs : (s.placeWord w).regs = s.regs := rfl
@[simp] theorem State.placeWord_pc : (s.placeWord w).pc = s.pc := rfl
@[simp] theorem State.placeWord_mem : (s.placeWord w).mem = s.mem := rfl
@[simp] theorem State.placeWord_fault : (s.placeWord w).fault = none := rfl
@[simp] theorem State.placeWord_x0Hardwired : (s.placeWord w).x0Hardwired = s.x0Hardwired := rfl

/-! ## A memory update written as a record -/

@[simp] theorem State.withMem_regs (m : Memory) : ({ s with mem := m } : State).regs = s.regs := rfl
@[simp] theorem State.withMem_reg (m : Memory) : ({ s with mem := m } : State).reg i = s.reg i := rfl

end Sys2Proof.Machine
end

