-- ==== Sys2Proof/Laws/Ops.lean ====
section
/-! SUPPORT. One spec lemma per shared operation: everything it can do, said once. -/

namespace Sys2Proof.Machine

/-- What a read of register `j` gives after a write to register `i` (spec/10_state.md R21). -/
theorem State.reg_setReg (s : State) (i : RegNum) (v : Word) (j : RegNum) :
    (s.setReg i v).reg j = if j = i ∧ ¬ (s.x0Hardwired = true ∧ i = 0#5) then v else s.reg j := by
  by_cases hi : s.hardwired i = true
  · have hx : s.x0Hardwired = true ∧ i = 0#5 := by simpa [State.hardwired] using hi
    rw [State.setReg, if_pos hi, if_neg (by simp [hx])]
  · have hx : ¬ (s.x0Hardwired = true ∧ i = 0#5) := by simpa [State.hardwired] using hi
    by_cases hj : j = i
    · subst hj
      have hr : ({ s with regs := s.regs.set j.toNat v j.isLt } : State).hardwired j = s.hardwired j := rfl
      simp [State.setReg, State.reg, hr, hi, hx]
    · have hn : i.toNat ≠ j.toNat := fun h => hj (BitVec.eq_of_toNat_eq h).symm
      have hr : ({ s with regs := s.regs.set i.toNat v i.isLt } : State).hardwired j = s.hardwired j := rfl
      simp [State.setReg, State.reg, hr, hi, hj, hn]

/-- `State.finish` answers `next`: the destination written, the pc advanced. -/
theorem State.finish_eq (s : State) (rd : RegNum) (v : Word) : s.finish rd v = .next (s.setReg rd v).advance := rfl

theorem State.memRead_eq (s : State) (ea : Int) (n : Width) :
    s.memRead ea n = (slotOf ea).map (fun a => n.low (Memory.read s.mem a)) := by
  unfold State.memRead; cases slotOf ea <;> rfl

/-- A load in range finishes with the slot's extended low bits; out of range it enters `MemIndexFault`. -/
theorem State.load_cases (s : State) (n : Width) (extend : Word → Word) (rd rs1 : RegNum) (imm : Word) :
    (∃ a, slotOf (s.ea rs1 imm) = some a ∧
      s.load n extend rd rs1 imm = .next (s.setReg rd (extend (n.low (Memory.read s.mem a)))).advance) ∨
    (slotOf (s.ea rs1 imm) = none ∧ s.load n extend rd rs1 imm = .next (s.takeFault .memIndexFault)) := by
  unfold State.load State.memRead
  cases h : slotOf (s.ea rs1 imm) with
  | some a => exact .inl ⟨a, rfl, rfl⟩
  | none => exact .inr ⟨rfl, rfl⟩

/-- A store in range merges into one slot and advances; out of range it enters `MemIndexFault`. -/
theorem State.store_cases (s : State) (n : Width) (rs1 rs2 : RegNum) (imm : Word) :
    (∃ a, slotOf (s.ea rs1 imm) = some a ∧
      s.store n rs1 rs2 imm = .next ({ s with
        mem := Memory.write s.mem a (n.merge (Memory.read s.mem a) (s.reg rs2)) } : State).advance) ∨
    (slotOf (s.ea rs1 imm) = none ∧ s.store n rs1 rs2 imm = .next (s.takeFault .memIndexFault)) := by
  unfold State.store State.memWrite
  cases h : slotOf (s.ea rs1 imm) with
  | some a => exact .inl ⟨a, rfl, rfl⟩
  | none => exact .inr ⟨rfl, rfl⟩

/-- A branch goes to `pc + imm` where its predicate holds and to `pc + 4` where it does not. -/
theorem State.branch_cases (s : State) (holds : Word → Word → Bool) (rs1 rs2 : RegNum) (imm : Word) :
    (holds (s.reg rs1) (s.reg rs2) = true ∧ s.branch holds rs1 rs2 imm = .next (s.setPc (s.pc + imm))) ∨
    (holds (s.reg rs1) (s.reg rs2) = false ∧ s.branch holds rs1 rs2 imm = .next s.advance) := by
  unfold State.branch
  cases h : holds (s.reg rs1) (s.reg rs2) with
  | true => exact .inl ⟨rfl, rfl⟩
  | false => exact .inr ⟨rfl, rfl⟩

/-- The fetched slot after a word is placed is that word. -/
theorem State.fetch_placeWord (s : State) (w : Word) : (s.placeWord w).fetch = some (.word w) := by
  have hi : (s.placeWord w).fetchIndex = s.fetchIndex := rfl
  have hp : (s.placeWord w).program = placeSlot s.program s.fetchIndex (.word w) := rfl
  have hl : (s.program.take s.fetchIndex ++ List.replicate (s.fetchIndex - s.program.length) (Slot.word 0#32)).length
      = s.fetchIndex := by
    simp only [List.length_append, List.length_take, List.length_replicate]; omega
  unfold State.fetch
  rw [hi, hp, placeSlot, List.getElem?_append_right (by omega), hl]
  simp

/-- The bits of a merged slot: those of the value below the width, those of the old word from there on. -/
theorem Width.getLsbD_merge (n : Width) (old v : Word) (k : Nat) (hk : k < 32) :
    (n.merge old v).getLsbD k = if k < n.bits then v.getLsbD k else old.getLsbD k := by
  cases n <;> simp only [Width.merge, Width.bits]
  · rw [BitVec.getLsbD_append]
    by_cases h : k < 8
    · simp [h]
    · simp [h]; rw [show 8 + (k - 8) = k by omega]; simp; intro; omega
  · rw [BitVec.getLsbD_append]
    by_cases h : k < 16
    · simp [h]
    · simp [h]; rw [show 16 + (k - 16) = k by omega]; simp; intro; omega
  · simp [hk]

end Sys2Proof.Machine
end

