-- ==== Sys2Proof/Laws/PerInstr.lean ====
section
/-! SUPPORT. The statements made per instruction. OpcodeRow: the word of a well-formed instruction lies in that
instruction's row of spec/opcode_table.json. -/

namespace Sys2Proof

/-- The encoded word has the fixed bits of its row: `W &&& mask = match` (spec/30_encoding.md, the reading of the table). -/
def Laws.OpcodeRow.Statement (i : Instr) : Prop := i.wf = true → encode i &&& i.row.1 = i.row.2

theorem Laws.OpcodeRow.add (rd rs1 rs2 : RegNum) : Laws.OpcodeRow.Statement (.add rd rs1 rs2) := fun _ => by
  simp only [encode, Instr.row, encR_and_functMask]; rfl

theorem Laws.OpcodeRow.sub (rd rs1 rs2 : RegNum) : Laws.OpcodeRow.Statement (.sub rd rs1 rs2) := fun _ => by
  simp only [encode, Instr.row, encR_and_functMask]; rfl

theorem Laws.OpcodeRow.xor (rd rs1 rs2 : RegNum) : Laws.OpcodeRow.Statement (.xor rd rs1 rs2) := fun _ => by
  simp only [encode, Instr.row, encR_and_functMask]; rfl

theorem Laws.OpcodeRow.or (rd rs1 rs2 : RegNum) : Laws.OpcodeRow.Statement (.or rd rs1 rs2) := fun _ => by
  simp only [encode, Instr.row, encR_and_functMask]; rfl

theorem Laws.OpcodeRow.and (rd rs1 rs2 : RegNum) : Laws.OpcodeRow.Statement (.and rd rs1 rs2) := fun _ => by
  simp only [encode, Instr.row, encR_and_functMask]; rfl

theorem Laws.OpcodeRow.sll (rd rs1 rs2 : RegNum) : Laws.OpcodeRow.Statement (.sll rd rs1 rs2) := fun _ => by
  simp only [encode, Instr.row, encR_and_functMask]; rfl

theorem Laws.OpcodeRow.srl (rd rs1 rs2 : RegNum) : Laws.OpcodeRow.Statement (.srl rd rs1 rs2) := fun _ => by
  simp only [encode, Instr.row, encR_and_functMask]; rfl

theorem Laws.OpcodeRow.sra (rd rs1 rs2 : RegNum) : Laws.OpcodeRow.Statement (.sra rd rs1 rs2) := fun _ => by
  simp only [encode, Instr.row, encR_and_functMask]; rfl

theorem Laws.OpcodeRow.slt (rd rs1 rs2 : RegNum) : Laws.OpcodeRow.Statement (.slt rd rs1 rs2) := fun _ => by
  simp only [encode, Instr.row, encR_and_functMask]; rfl

theorem Laws.OpcodeRow.sltu (rd rs1 rs2 : RegNum) : Laws.OpcodeRow.Statement (.sltu rd rs1 rs2) := fun _ => by
  simp only [encode, Instr.row, encR_and_functMask]; rfl

theorem Laws.OpcodeRow.addi (rd rs1 : RegNum) (imm : Word) : Laws.OpcodeRow.Statement (.addi rd rs1 imm) := fun _ => by
  simp only [encode, Instr.row, encI_eq_encR, encR_and_funct3Mask]; rfl

theorem Laws.OpcodeRow.xori (rd rs1 : RegNum) (imm : Word) : Laws.OpcodeRow.Statement (.xori rd rs1 imm) := fun _ => by
  simp only [encode, Instr.row, encI_eq_encR, encR_and_funct3Mask]; rfl

theorem Laws.OpcodeRow.ori (rd rs1 : RegNum) (imm : Word) : Laws.OpcodeRow.Statement (.ori rd rs1 imm) := fun _ => by
  simp only [encode, Instr.row, encI_eq_encR, encR_and_funct3Mask]; rfl

theorem Laws.OpcodeRow.andi (rd rs1 : RegNum) (imm : Word) : Laws.OpcodeRow.Statement (.andi rd rs1 imm) := fun _ => by
  simp only [encode, Instr.row, encI_eq_encR, encR_and_funct3Mask]; rfl

theorem Laws.OpcodeRow.slti (rd rs1 : RegNum) (imm : Word) : Laws.OpcodeRow.Statement (.slti rd rs1 imm) := fun _ => by
  simp only [encode, Instr.row, encI_eq_encR, encR_and_funct3Mask]; rfl

theorem Laws.OpcodeRow.sltiu (rd rs1 : RegNum) (imm : Word) : Laws.OpcodeRow.Statement (.sltiu rd rs1 imm) := fun _ => by
  simp only [encode, Instr.row, encI_eq_encR, encR_and_funct3Mask]; rfl

theorem Laws.OpcodeRow.lb (rd rs1 : RegNum) (imm : Word) : Laws.OpcodeRow.Statement (.lb rd rs1 imm) := fun _ => by
  simp only [encode, Instr.row, encI_eq_encR, encR_and_funct3Mask]; rfl

theorem Laws.OpcodeRow.lh (rd rs1 : RegNum) (imm : Word) : Laws.OpcodeRow.Statement (.lh rd rs1 imm) := fun _ => by
  simp only [encode, Instr.row, encI_eq_encR, encR_and_funct3Mask]; rfl

theorem Laws.OpcodeRow.lw (rd rs1 : RegNum) (imm : Word) : Laws.OpcodeRow.Statement (.lw rd rs1 imm) := fun _ => by
  simp only [encode, Instr.row, encI_eq_encR, encR_and_funct3Mask]; rfl

theorem Laws.OpcodeRow.lbu (rd rs1 : RegNum) (imm : Word) : Laws.OpcodeRow.Statement (.lbu rd rs1 imm) := fun _ => by
  simp only [encode, Instr.row, encI_eq_encR, encR_and_funct3Mask]; rfl

theorem Laws.OpcodeRow.lhu (rd rs1 : RegNum) (imm : Word) : Laws.OpcodeRow.Statement (.lhu rd rs1 imm) := fun _ => by
  simp only [encode, Instr.row, encI_eq_encR, encR_and_funct3Mask]; rfl

theorem Laws.OpcodeRow.jalr (rd rs1 : RegNum) (imm : Word) : Laws.OpcodeRow.Statement (.jalr rd rs1 imm) := fun _ => by
  simp only [encode, Instr.row, encI_eq_encR, encR_and_funct3Mask]; rfl

theorem Laws.OpcodeRow.slli (rd rs1 : RegNum) (imm : Word) : Laws.OpcodeRow.Statement (.slli rd rs1 imm) := fun h => by
  have hi := extract_shamt imm (by simpa [Instr.wf, shamtOk] using h)
  simp only [encode, Instr.row, encI_eq_encR, encR_and_functMask, hi]; rfl

theorem Laws.OpcodeRow.srli (rd rs1 : RegNum) (imm : Word) : Laws.OpcodeRow.Statement (.srli rd rs1 imm) := fun h => by
  have hi := extract_shamt imm (by simpa [Instr.wf, shamtOk] using h)
  simp only [encode, Instr.row, encI_eq_encR, encR_and_functMask, hi]; rfl

theorem Laws.OpcodeRow.srai (rd rs1 : RegNum) (imm : Word) : Laws.OpcodeRow.Statement (.srai rd rs1 imm) := fun h => by
  have hi := extract_srai imm (by simpa [Instr.wf, sraiOk] using h)
  simp only [encode, Instr.row, encI_eq_encR, encR_and_functMask, hi]; rfl

theorem Laws.OpcodeRow.sb (rs1 rs2 : RegNum) (imm : Word) : Laws.OpcodeRow.Statement (.sb rs1 rs2 imm) := fun _ => by
  simp only [encode, Instr.row, encS_eq_encR, encR_and_funct3Mask]; rfl

theorem Laws.OpcodeRow.sh (rs1 rs2 : RegNum) (imm : Word) : Laws.OpcodeRow.Statement (.sh rs1 rs2 imm) := fun _ => by
  simp only [encode, Instr.row, encS_eq_encR, encR_and_funct3Mask]; rfl

theorem Laws.OpcodeRow.sw (rs1 rs2 : RegNum) (imm : Word) : Laws.OpcodeRow.Statement (.sw rs1 rs2 imm) := fun _ => by
  simp only [encode, Instr.row, encS_eq_encR, encR_and_funct3Mask]; rfl

theorem Laws.OpcodeRow.beq (rs1 rs2 : RegNum) (imm : Word) : Laws.OpcodeRow.Statement (.beq rs1 rs2 imm) := fun _ => by
  simp only [encode, Instr.row, encB_eq_encR, encR_and_funct3Mask]; rfl

theorem Laws.OpcodeRow.bne (rs1 rs2 : RegNum) (imm : Word) : Laws.OpcodeRow.Statement (.bne rs1 rs2 imm) := fun _ => by
  simp only [encode, Instr.row, encB_eq_encR, encR_and_funct3Mask]; rfl

theorem Laws.OpcodeRow.blt (rs1 rs2 : RegNum) (imm : Word) : Laws.OpcodeRow.Statement (.blt rs1 rs2 imm) := fun _ => by
  simp only [encode, Instr.row, encB_eq_encR, encR_and_funct3Mask]; rfl

theorem Laws.OpcodeRow.bge (rs1 rs2 : RegNum) (imm : Word) : Laws.OpcodeRow.Statement (.bge rs1 rs2 imm) := fun _ => by
  simp only [encode, Instr.row, encB_eq_encR, encR_and_funct3Mask]; rfl

theorem Laws.OpcodeRow.bltu (rs1 rs2 : RegNum) (imm : Word) : Laws.OpcodeRow.Statement (.bltu rs1 rs2 imm) := fun _ => by
  simp only [encode, Instr.row, encB_eq_encR, encR_and_funct3Mask]; rfl

theorem Laws.OpcodeRow.bgeu (rs1 rs2 : RegNum) (imm : Word) : Laws.OpcodeRow.Statement (.bgeu rs1 rs2 imm) := fun _ => by
  simp only [encode, Instr.row, encB_eq_encR, encR_and_funct3Mask]; rfl

theorem Laws.OpcodeRow.lui (rd : RegNum) (imm : Word) : Laws.OpcodeRow.Statement (.lui rd imm) := fun _ => by
  simp only [encode, Instr.row, encU_eq_encR, encR_and_opcodeMask]; rfl

theorem Laws.OpcodeRow.auipc (rd : RegNum) (imm : Word) : Laws.OpcodeRow.Statement (.auipc rd imm) := fun _ => by
  simp only [encode, Instr.row, encU_eq_encR, encR_and_opcodeMask]; rfl

theorem Laws.OpcodeRow.jal (rd : RegNum) (imm : Word) : Laws.OpcodeRow.Statement (.jal rd imm) := fun _ => by
  simp only [encode, Instr.row, encJ_eq_encR, encR_and_opcodeMask]; rfl

end Sys2Proof
end

