-- ==== Sys2Proof/Laws/Step.lean ====
section
/-! SUPPORT. Everything an instruction, a step, a host step and a run can do, said once, so that no proof unfolds them. -/

namespace Sys2Proof.Machine

/-- Everything an instruction can do: finish with a register write; enter one of the two faults; Jalr; store one slot;
branch; Jal. -/
theorem exec_cases (i : Instr) (s : State) :
    (∃ rd v, exec i s = .next (s.setReg rd v).advance ∧ destReg i = some rd ∧ jumpOffset i = none ∧
      jalrNumber i = none ∧ (∀ ea, memAddress s i = some ea → 0 ≤ ea ∧ ea ≤ 2047)) ∨
    (∃ ea, memAddress s i = some ea ∧ (ea < 0 ∨ 2047 < ea) ∧ exec i s = .next (s.takeFault .memIndexFault) ∧
      jumpOffset i = none ∧ jalrNumber i = none ∧ storeSlot s i = none) ∨
    (∃ n, jalrNumber i = some n ∧ 31 < n ∧ exec i s = .next (s.takeFault .regIndexFault) ∧ jumpOffset i = none ∧
      memAddress s i = none) ∨
    (∃ rd n, jalrNumber i = some n ∧ n ≤ 31 ∧ destReg i = some rd ∧
      exec i s = .next ((s.setReg rd s.nextPc).setPc (s.reg (BitVec.ofNat 5 n))) ∧ jumpOffset i = none ∧
      memAddress s i = none) ∨
    (∃ a v ea, memAddress s i = some ea ∧ slotOf ea = some a ∧ storeSlot s i = some a ∧
      exec i s = .next ({ s with mem := Memory.write s.mem a v } : State).advance ∧ destReg i = none ∧
      jumpOffset i = none ∧ jalrNumber i = none) ∨
    (∃ imm, jumpOffset i = some imm ∧ jalrNumber i = none ∧ memAddress s i = none ∧ destReg i = none ∧
      (exec i s = .next (s.setPc (s.pc + imm)) ∨ exec i s = .next s.advance)) ∨
    (∃ rd imm, jumpOffset i = some imm ∧ jalrNumber i = none ∧ memAddress s i = none ∧ destReg i = some rd ∧
      exec i s = .next ((s.setReg rd s.nextPc).setPc (s.pc + imm))) := by
  cases i
  case add | sub | xor | or | and | sll | srl | sra | slt | sltu | addi | xori | ori | andi | slli | srli | srai | slti |
      sltiu | lui | auipc =>
    exact .inl ⟨_, _, rfl, rfl, rfl, rfl, by simp [memAddress]⟩
  case lb rd rs1 imm | lh rd rs1 imm | lw rd rs1 imm | lbu rd rs1 imm | lhu rd rs1 imm =>
    all_goals
      simp only [exec, execLb, execLh, execLw, execLbu, execLhu]
      rcases State.load_cases s _ _ rd rs1 imm with ⟨a, ha, h⟩ | ⟨ha, h⟩
      · refine .inl ⟨rd, _, h, rfl, rfl, rfl, ?_⟩
        have := slotOf_eq_some.1 ha
        simp [memAddress, Config.memSlots] at this ⊢; omega
      · exact .inr (.inl ⟨_, rfl, slotOf_eq_none.1 ha, h, rfl, rfl, rfl⟩)
  case jalr rd rs1 imm =>
    simp only [exec, execJalr]
    by_cases h : 31 < targetNumber rs1 imm
    · exact .inr (.inr (.inl ⟨_, rfl, h, by rw [if_pos h], rfl, rfl⟩))
    · exact .inr (.inr (.inr (.inl ⟨rd, _, rfl, by omega, rfl, by rw [if_neg h]; rfl, rfl, rfl⟩)))
  case sb rs1 rs2 imm | sh rs1 rs2 imm | sw rs1 rs2 imm =>
    all_goals
      simp only [exec, execSb, execSh, execSw]
      rcases State.store_cases s _ rs1 rs2 imm with ⟨a, ha, h⟩ | ⟨ha, h⟩
      · exact .inr (.inr (.inr (.inr (.inl ⟨a, _, _, rfl, ha, ha, h, rfl, rfl, rfl⟩))))
      · exact .inr (.inl ⟨_, rfl, slotOf_eq_none.1 ha, h, rfl, rfl, ha⟩)
  case beq rs1 rs2 imm | bne rs1 rs2 imm | blt rs1 rs2 imm | bge rs1 rs2 imm | bltu rs1 rs2 imm |
      bgeu rs1 rs2 imm =>
    all_goals
      simp only [exec, execBeq, execBne, execBlt, execBge, execBltu, execBgeu]
      refine .inr (.inr (.inr (.inr (.inr (.inl ⟨imm, rfl, rfl, rfl, rfl, ?_⟩)))))
      rcases State.branch_cases s _ rs1 rs2 imm with ⟨-, h⟩ | ⟨-, h⟩
      · exact .inl h
      · exact .inr h
  case jal rd imm =>
    exact .inr (.inr (.inr (.inr (.inr (.inr ⟨rd, imm, rfl, rfl, rfl, rfl, rfl⟩)))))

/-- Everything a step can do: report the latched fault, the end of the program or a decode error, or run the decoded
instruction. -/
theorem step_cases (s : State) :
    (∃ f, s.fault = some f ∧ step s = .fault f.report) ∨
    (s.fault = none ∧ s.fetch = none ∧ step s = .fault .programCounterOutOfBounds) ∨
    (∃ x e, s.fault = none ∧ s.fetch = some x ∧ x.decode = .error e ∧ step s = .fault (stepError e)) ∨
    (∃ x i t, s.fault = none ∧ s.fetch = some x ∧ x.decode = .ok i ∧ exec i s = .next t ∧ step s = .next t) := by
  unfold step
  rcases hf : s.fault with _ | f
  · rcases hx : s.fetch with _ | x
    · exact .inr (.inl ⟨rfl, rfl, rfl⟩)
    · rcases hd : x.decode with e | i
      · exact .inr (.inr (.inl ⟨x, e, rfl, rfl, hd, by simp [hd]⟩))
      · refine .inr (.inr (.inr ?_))
        rcases exec_cases i s with ⟨_, _, h, _⟩ | ⟨_, _, _, h, _⟩ | ⟨_, _, _, h, _⟩ | ⟨_, _, _, _, _, h, _⟩ |
          ⟨_, _, _, _, _, _, h, _⟩ | ⟨_, _, _, _, _, h | h⟩ | ⟨_, _, _, _, _, _, h⟩ <;>
          exact ⟨x, i, _, rfl, rfl, hd, h, by simp [hd, h]⟩
  · exact .inl ⟨f, rfl, rfl⟩

/-- Everything a host step can do; a Success leaves the latch clear. -/
theorem hostStep_cases (s : State) :
    (∃ f, s.fault = some f ∧ hostStep s = (s, .failed f.report)) ∨
    (s.fault = none ∧ s.fetch = none ∧ hostStep s = (s, .failed .programCounterOutOfBounds)) ∨
    (∃ x e, s.fault = none ∧ s.fetch = some x ∧ x.decode = .error e ∧ hostStep s = (s, .failed (stepError e))) ∨
    (∃ x i t, s.fault = none ∧ s.fetch = some x ∧ x.decode = .ok i ∧ exec i s = .next t ∧ t.fault = none ∧
      hostStep s = (t, .success)) ∨
    (∃ x i f, s.fault = none ∧ s.fetch = some x ∧ x.decode = .ok i ∧ exec i s = .next (s.takeFault f) ∧
      hostStep s = (s.takeFault f, .failed f.report)) := by
  rcases step_cases s with ⟨f, h, h'⟩ | ⟨h, h2, h'⟩ | ⟨x, e, h, h2, h3, h'⟩ | ⟨x, i, t, h, h2, h3, h4, h'⟩
  · exact .inl ⟨f, h, by simp [hostStep, h']⟩
  · exact .inr (.inl ⟨h, h2, by simp [hostStep, h']⟩)
  · exact .inr (.inr (.inl ⟨x, e, h, h2, h3, by simp [hostStep, h']⟩))
  · refine .inr (.inr (.inr ?_))
    have : t.fault = none ∨ ∃ f, t = s.takeFault f := by
      rcases exec_cases i s with ⟨_, _, hh, _⟩ | ⟨_, _, _, hh, _⟩ | ⟨_, _, _, hh, _⟩ | ⟨_, _, _, _, _, hh, _⟩ |
        ⟨_, _, _, _, _, _, hh, _⟩ | ⟨_, _, _, _, _, hh | hh⟩ | ⟨_, _, _, _, _, _, hh⟩ <;>
        rw [h4] at hh <;> cases hh <;> first | exact .inr ⟨_, rfl⟩ | (left; simpa using h)
    rcases this with ht | ⟨f, rfl⟩
    · exact .inl ⟨x, i, t, h, h2, h3, h4, ht, by simp [hostStep, h', ht]⟩
    · exact .inr ⟨x, i, f, h, h2, h3, h4, by simp [hostStep, h']⟩

/-- The step after a word is placed where the next step fetches runs the instruction it decodes to. -/
theorem step_placeWord (s : State) (w : Word) (i : Instr) (h : decode w = .ok i) :
    step (s.placeWord w) = exec i (s.placeWord w) := by
  unfold step
  rw [State.fetch_placeWord]
  simp only [State.placeWord_fault, Slot.decode, h]

/-- One more step of a run that goes on. -/
theorem core_run_next (n : Nat) (s t : State) (h : step s = .next t) : core.run (n + 1) s = core.run n t := by
  have h' : core.step s = .next t := h
  simp only [Host.Core.run, h']

/-- A run stops at the first fault. -/
theorem core_run_fault (n : Nat) (s : State) (r : Fault) (h : step s = .fault r) : core.run (n + 1) s = .fault r := by
  have h' : core.step s = .fault r := h
  simp only [Host.Core.run, h']

end Sys2Proof.Machine
end

