-- ==== Sys2Proof/Laws/Text.lean ====
section
/-! SUPPORT. The small lemmas of the text form: length, characters, concatenation and value of a word's text. -/

namespace Sys2Proof

theorem bitsText_length (n v : Nat) : (bitsText n v).length = n := by
  induction n generalizing v with
  | zero => rfl
  | succ n ih => simp [bitsText, ih]

theorem bitsText_isBit (n v : Nat) : (bitsText n v).all isBit = true := by
  induction n generalizing v with
  | zero => rfl
  | succ n ih => simp [bitsText, ih]; split <;> rfl

theorem bitsText_add (m n v : Nat) : bitsText (m + n) v = bitsText m (v / 2 ^ n) ++ bitsText n v := by
  induction n generalizing v with
  | zero => simp [bitsText]
  | succ n ih =>
    rw [← Nat.add_assoc, bitsText, ih, bitsText, ← List.append_assoc, Nat.div_div_eq_div_mul, Nat.pow_succ']

theorem magnitude_concat (t : List Char) (c : Char) :
    magnitude (t ++ [c]) = 2 * magnitude t + (if c == '1' then 1 else 0) := by
  simp [magnitude, List.foldl_append]

/-- The magnitude parse of a word's text gives the word back. -/
theorem magnitude_bitsText (n v : Nat) : magnitude (bitsText n v) = v % 2 ^ n := by
  induction n generalizing v with
  | zero => simp [bitsText, magnitude, Nat.mod_one]
  | succ n ih =>
    have h2 : v % 2 < 2 := Nat.mod_lt _ (by decide)
    have hp : v % 2 ^ (n + 1) = 2 * (v / 2 % 2 ^ n) + v % 2 := by
      rw [Nat.pow_succ', Nat.mod_mul]; omega
    rw [bitsText, magnitude_concat, ih, hp]
    by_cases h : v % 2 = 1
    · simp [h]
    · have h0 : v % 2 = 0 := by omega
      simp [h0]

theorem magnitude_lt (t : List Char) : magnitude t < 2 ^ t.length := by
  induction t using List.reverseRecOn with
  | nil => decide
  | append_singleton t c ih =>
    rw [magnitude_concat, List.length_append, List.length_singleton, Nat.pow_succ]
    split <;> omega

/-- A binary text is the text of its value: the correspondence of spec/30_encoding.md R82 is one-to-one. -/
theorem bitsText_magnitude (t : List Char) (h : t.all isBit = true) : bitsText t.length (magnitude t) = t := by
  induction t using List.reverseRecOn with
  | nil => rfl
  | append_singleton t c ih =>
    simp only [List.all_append, Bool.and_eq_true] at h
    have hc : c = '0' ∨ c = '1' := by simpa [isBit] using h.2
    rw [magnitude_concat, List.length_append, List.length_singleton, bitsText]
    rcases hc with rfl | rfl
    · have e1 : (2 * magnitude t + (if ('0' == '1') = true then 1 else 0)) / 2 = magnitude t := by simp
      have e2 : (2 * magnitude t + (if ('0' == '1') = true then 1 else 0)) % 2 = 0 := by simp
      rw [e1, e2, ih h.1]; rfl
    · have e1 : (2 * magnitude t + (if ('1' == '1') = true then 1 else 0)) / 2 = magnitude t := by simp; omega
      have e2 : (2 * magnitude t + (if ('1' == '1') = true then 1 else 0)) % 2 = 1 := by simp
      rw [e1, e2, ih h.1]; rfl

theorem wordText_length (w : Word) : (wordText w).length = 32 := bitsText_length 32 w.toNat

theorem textOk_wordText (w : Word) : textOk (wordText w) = true := by
  simp only [textOk, wordText_length, decide_true, Bool.true_and]
  exact bitsText_isBit 32 w.toNat

/-- A field of a word's text is the text of those bits. -/
theorem textField_wordText (w : Word) (a n m : Nat) (h : a + n + m = 32) :
    textField (wordText w) a n = bitsText n (w.toNat / 2 ^ m) := by
  have split : ∀ v q, q = a + (n + m) →
      bitsText q v = bitsText a (v / 2 ^ (n + m)) ++ (bitsText n (v / 2 ^ m) ++ bitsText m v) := by
    intro v q hq
    rw [hq, bitsText_add, bitsText_add n m]
  unfold wordText textField
  rw [split w.toNat 32 (by omega), List.drop_left' (bitsText_length _ _), List.take_left' (bitsText_length _ _)]

/-- The bits of a field of a word's text are that slice of the word. -/
theorem textBits_wordText (w : Word) (a n m : Nat) (h : a + n + m = 32) :
    textBits n (wordText w) a = some (w.extractLsb' m n) := by
  unfold textBits
  rw [textField_wordText w a n m h, if_pos (bitsText_isBit _ _), magnitude_bitsText]
  congr 1
  apply BitVec.eq_of_toNat_eq
  simp [Nat.shiftRight_eq_div_pow]

theorem textGroup_wordText (w : Word) : textGroup (wordText w) = groupOf (opcodeField w) := by
  have h : textBits 7 (wordText w) 25 = some (opcodeField w) := textBits_wordText w 25 7 0 (by omega)
  simp only [textGroup, h]

theorem textField_length (t : List Char) (a n : Nat) (h : t.length = 32) (ha : a + n ≤ 32) :
    (textField t a n).length = n := by
  unfold textField
  simp only [List.length_take, List.length_drop]
  omega

/-- A full field has the bits of `v` exactly where it is, character for character, the text of `v`. -/
theorem textBits_eq_some (n : Nat) (t : List Char) (a : Nat) (hl : (textField t a n).length = n) (v : BitVec n) :
    textBits n t a = some v ↔ textField t a n = bitsText n v.toNat := by
  have hlt := magnitude_lt (textField t a n)
  rw [hl] at hlt
  unfold textBits
  split
  · rename_i hb
    have hm := bitsText_magnitude _ hb
    rw [hl] at hm
    rw [Option.some.injEq]
    constructor
    · intro h
      rw [← h, BitVec.toNat_ofNat, Nat.mod_eq_of_lt hlt]
      exact hm.symm
    · intro h
      rw [h, magnitude_bitsText]
      apply BitVec.eq_of_toNat_eq
      simp
  · rename_i hb
    simp only [reduceCtorEq, false_iff]
    intro h
    rw [h] at hb
    exact hb (bitsText_isBit _ _)

end Sys2Proof
end

