-- ==== Sys2Proof/Tests/Slice0.lean ====
section
/-! SUPPORT. The model's own tests. Expected values are the spec's (spec/95_test_vectors.md, the section in each comment),
never the model's answers. The `witness_` theorems show, for every obligation with hypotheses, states and operands that
meet them, at the boundaries of each clause. -/

namespace Sys2Proof.Tests

open Sys2Proof.Machine

/-! ## Helpers -/

/-- A state with the word `w` fetched at `pc`, some registers and a memory. -/
def at_ (pc : Word) (rs : List (RegNum × Word)) (w : Word) (m : Memory := []) (x0 : Bool := true) : State :=
  let s : State := { State.initial x0 [] with pc := pc, mem := m }
  (rs.foldl (fun (t : State) r => { t with regs := t.regs.set r.1.toNat r.2 r.1.isLt }) s).placeWord w

/-- A reset machine over a program. -/
def withProgram (p : List Slot) (pc : Word := 0#32) (latch : Option LatchedFault := none) : State :=
  { State.initial true p with pc := pc, fault := latch }

/-- What a view shows of the next state, none where the answer is no next state. -/
def seen {α : Type} (view : State → α) : Result → Option α
  | .next t => some (view t)
  | .fault _ => none
  | .refused _ => none

/-- The fault an answer carries. -/
def stop : Result → Option Fault
  | .fault r => some r
  | .next _ => none
  | .refused _ => none

/-- Register `j` after one step. -/
def reg1 (j : RegNum) (s : State) : Option Word := seen (fun t => t.reg j) (step s)

/-- Slot `a` after one step. -/
def slot1 (a : Nat) (s : State) : Option Word := seen (fun t => Memory.read t.mem a) (step s)

/-- The pc after one step. -/
def pc1 (s : State) : Option Word := seen (fun t => t.pc) (step s)

/-- Register `j`, the pc and the latch after one step. -/
def all1 (j : RegNum) (s : State) : Option (Word × Word × Option LatchedFault) :=
  seen (fun t => (t.reg j, t.pc, t.fault)) (step s)

/-- The outcome of one host step. -/
def out1 (s : State) : Report := (hostStep s).2

/-! ## WellFormed: each check refuses an ill-formed term (spec/30_encoding.md R63 to R67, R72, R82) -/

theorem test_wf_imm12 : (Instr.addi 1 0 4096).wf = false ∧ (Instr.sw 0 1 4096).wf = false ∧
    (Instr.jalr 0 1 0xFFFFFFFF).wf = false ∧ (Instr.lw 1 0 4095).wf = true := by decide

theorem test_wf_shamt : (Instr.slli 1 1 32).wf = false ∧ (Instr.srli 1 1 1024).wf = false ∧
    (Instr.slli 1 1 31).wf = true := by decide

theorem test_wf_srai : (Instr.srai 1 1 4).wf = false ∧ (Instr.srai 1 1 1056).wf = false ∧
    (Instr.srai 1 1 1024).wf = true ∧ (Instr.srai 1 1 1055).wf = true := by decide

theorem test_wf_immB : (Instr.beq 1 1 7).wf = false ∧ (Instr.bgeu 1 1 8192).wf = false ∧
    (Instr.bne 1 1 8190).wf = true := by decide

theorem test_wf_immU : (Instr.lui 1 1048576).wf = false ∧ (Instr.auipc 1 1048575).wf = true := by decide

theorem test_wf_immJ : (Instr.jal 1 3).wf = false ∧ (Instr.jal 1 2097152).wf = false ∧
    (Instr.jal 1 2097150).wf = true := by decide

theorem test_wf_isBit : isBit 'x' = false ∧ isBit '0' = true ∧ isBit '1' = true := by decide

theorem test_wf_textOk : textOk "0000000010010100000010010011001".toList = false ∧
    textOk "0000000010010100000010010011001x".toList = false ∧
    textOk "00000000100101000000100100110011".toList = true := by decide

theorem test_wf_slot : (Slot.text "00000000100101000000100100110011".toList).wf = false ∧
    (Slot.text "x".toList).wf = true ∧ (Slot.word 0).wf = true := by decide

/-! ## Decoding: words written out field by field (95 sections 3, 4, 6 to 12; the layouts of R62 to R77) -/

theorem test_decode_register_alu :
    decode (0b0000000#7 ++ 0b01001#5 ++ 0b01000#5 ++ 0b000#3 ++ 0b10010#5 ++ 0b0110011#7) =
      .ok (.add 18 8 9) ∧
    decode (0b0100000#7 ++ 0b01000#5 ++ 0b01001#5 ++ 0b000#3 ++ 0b10011#5 ++ 0b0110011#7) =
      .ok (.sub 19 9 8) ∧
    decode (0b0000000#7 ++ 0b00010#5 ++ 0b00001#5 ++ 0b100#3 ++ 0b00011#5 ++ 0b0110011#7) =
      .ok (.xor 3 1 2) ∧
    decode (0b0000000#7 ++ 0b01001#5 ++ 0b01000#5 ++ 0b110#3 ++ 0b10101#5 ++ 0b0110011#7) =
      .ok (.or 21 8 9) ∧
    decode (0b0000000#7 ++ 0b01001#5 ++ 0b01000#5 ++ 0b111#3 ++ 0b10100#5 ++ 0b0110011#7) =
      .ok (.and 20 8 9) ∧
    decode (0b0000000#7 ++ 0b00010#5 ++ 0b00001#5 ++ 0b001#3 ++ 0b00011#5 ++ 0b0110011#7) =
      .ok (.sll 3 1 2) ∧
    decode (0b0000000#7 ++ 0b00010#5 ++ 0b00001#5 ++ 0b101#3 ++ 0b00011#5 ++ 0b0110011#7) =
      .ok (.srl 3 1 2) ∧
    decode (0b0100000#7 ++ 0b11111#5 ++ 0b11111#5 ++ 0b101#3 ++ 0b11111#5 ++ 0b0110011#7) =
      .ok (.sra 31 31 31) ∧
    decode (0b0000000#7 ++ 0b01000#5 ++ 0b01001#5 ++ 0b010#3 ++ 0b10110#5 ++ 0b0110011#7) =
      .ok (.slt 22 9 8) ∧
    decode (0b0000000#7 ++ 0b00010#5 ++ 0b00001#5 ++ 0b011#3 ++ 0b00011#5 ++ 0b0110011#7) =
      .ok (.sltu 3 1 2) := by decide

theorem test_decode_immediate_alu :
    decode (0b111111111111#12 ++ 0b00000#5 ++ 0b000#3 ++ 0b00001#5 ++ 0b0010011#7) =
      .ok (.addi 1 0 4095) ∧
    decode (0b111111111111#12 ++ 0b00001#5 ++ 0b100#3 ++ 0b00010#5 ++ 0b0010011#7) =
      .ok (.xori 2 1 4095) ∧
    decode (0b011011111000#12 ++ 0b00001#5 ++ 0b110#3 ++ 0b00010#5 ++ 0b0010011#7) =
      .ok (.ori 2 1 1784) ∧
    decode (0b000011111111#12 ++ 0b00001#5 ++ 0b111#3 ++ 0b00010#5 ++ 0b0010011#7) =
      .ok (.andi 2 1 255) ∧
    decode (0b0000000#7 ++ 0b01100#5 ++ 0b00001#5 ++ 0b001#3 ++ 0b00010#5 ++ 0b0010011#7) =
      .ok (.slli 2 1 12) ∧
    decode (0b0000000#7 ++ 0b00100#5 ++ 0b00100#5 ++ 0b101#3 ++ 0b01000#5 ++ 0b0010011#7) =
      .ok (.srli 8 4 4) ∧
    decode (0b0100000#7 ++ 0b00100#5 ++ 0b00100#5 ++ 0b101#3 ++ 0b00111#5 ++ 0b0010011#7) =
      .ok (.srai 7 4 1028) ∧
    decode (0b111111111111#12 ++ 0b00001#5 ++ 0b010#3 ++ 0b00010#5 ++ 0b0010011#7) =
      .ok (.slti 2 1 4095) ∧
    decode (0b111111111111#12 ++ 0b00001#5 ++ 0b011#3 ++ 0b00010#5 ++ 0b0010011#7) =
      .ok (.sltiu 2 1 4095) := by decide

theorem test_decode_load_and_jalr :
    decode (0b000000000101#12 ++ 0b00000#5 ++ 0b000#3 ++ 0b00101#5 ++ 0b0000011#7) =
      .ok (.lb 5 0 5) ∧
    decode (0b000000000101#12 ++ 0b00000#5 ++ 0b001#3 ++ 0b00111#5 ++ 0b0000011#7) =
      .ok (.lh 7 0 5) ∧
    decode (0b011111111111#12 ++ 0b00001#5 ++ 0b010#3 ++ 0b00010#5 ++ 0b0000011#7) =
      .ok (.lw 2 1 2047) ∧
    decode (0b000000000101#12 ++ 0b00000#5 ++ 0b100#3 ++ 0b00110#5 ++ 0b0000011#7) =
      .ok (.lbu 6 0 5) ∧
    decode (0b000000000101#12 ++ 0b00000#5 ++ 0b101#3 ++ 0b01000#5 ++ 0b0000011#7) =
      .ok (.lhu 8 0 5) ∧
    decode (0b000000000010#12 ++ 0b00011#5 ++ 0b000#3 ++ 0b00000#5 ++ 0b1100111#7) =
      .ok (.jalr 0 3 2) := by decide

theorem test_decode_store :
    decode (0b1111111#7 ++ 0b00000#5 ++ 0b00000#5 ++ 0b000#3 ++ 0b11111#5 ++ 0b0100011#7) =
      .ok (.sb 0 0 4095) ∧
    decode (0b0000000#7 ++ 0b00010#5 ++ 0b00000#5 ++ 0b001#3 ++ 0b00101#5 ++ 0b0100011#7) =
      .ok (.sh 0 2 5) ∧
    decode (0b0000001#7 ++ 0b11101#5 ++ 0b00000#5 ++ 0b010#3 ++ 0b00000#5 ++ 0b0100011#7) =
      .ok (.sw 0 29 32) := by decide

theorem test_decode_branch :
    decode (0b1#1 ++ 0b111111#6 ++ 0b00000#5 ++ 0b00000#5 ++ 0b000#3 ++ 0b1110#4 ++ 0b1#1 ++ 0b1100011#7) =
      .ok (.beq 0 0 8188) ∧
    decode (0b0#1 ++ 0b000000#6 ++ 0b00010#5 ++ 0b00001#5 ++ 0b001#3 ++ 0b0110#4 ++ 0b0#1 ++ 0b1100011#7) =
      .ok (.bne 1 2 12) ∧
    decode (0b0#1 ++ 0b000000#6 ++ 0b00010#5 ++ 0b00001#5 ++ 0b100#3 ++ 0b0100#4 ++ 0b0#1 ++ 0b1100011#7) =
      .ok (.blt 1 2 8) ∧
    decode (0b0#1 ++ 0b000000#6 ++ 0b00010#5 ++ 0b00001#5 ++ 0b101#3 ++ 0b0100#4 ++ 0b0#1 ++ 0b1100011#7) =
      .ok (.bge 1 2 8) ∧
    decode (0b0#1 ++ 0b000000#6 ++ 0b00010#5 ++ 0b00001#5 ++ 0b110#3 ++ 0b0100#4 ++ 0b0#1 ++ 0b1100011#7) =
      .ok (.bltu 1 2 8) ∧
    decode (0b0#1 ++ 0b000000#6 ++ 0b00010#5 ++ 0b00001#5 ++ 0b111#3 ++ 0b0100#4 ++ 0b0#1 ++ 0b1100011#7) =
      .ok (.bgeu 1 2 8) ∧
    decode (0b0#1 ++ 0b000000#6 ++ 0b00000#5 ++ 0b00000#5 ++ 0b000#3 ++ 0b0000#4 ++ 0b1#1 ++ 0b1100011#7) =
      .ok (.beq 0 0 2048) ∧
    decode (0b1#1 ++ 0b000000#6 ++ 0b00000#5 ++ 0b00000#5 ++ 0b000#3 ++ 0b0000#4 ++ 0b0#1 ++ 0b1100011#7) =
      .ok (.beq 0 0 4096) := by decide

theorem test_decode_upper_immediate_and_jump :
    decode (0b11111111111111111111#20 ++ 0b00100#5 ++ 0b0110111#7) =
      .ok (.lui 4 1048575) ∧
    decode (0b00000000000000000001#20 ++ 0b00001#5 ++ 0b0010111#7) =
      .ok (.auipc 1 1) ∧
    decode (0b0#1 ++ 0b0000000100#10 ++ 0b0#1 ++ 0b00000000#8 ++ 0b00010#5 ++ 0b1101111#7) =
      .ok (.jal 2 8) ∧
    decode (0b0#1 ++ 0b0000000000#10 ++ 0b1#1 ++ 0b00000000#8 ++ 0b00000#5 ++ 0b1101111#7) =
      .ok (.jal 0 2048) ∧
    decode (0b0#1 ++ 0b0000000000#10 ++ 0b0#1 ++ 0b00000001#8 ++ 0b00000#5 ++ 0b1101111#7) =
      .ok (.jal 0 4096) ∧
    decode (0b1#1 ++ 0b0000000000#10 ++ 0b0#1 ++ 0b00000000#8 ++ 0b00000#5 ++ 0b1101111#7) =
      .ok (.jal 0 1048576) := by decide

/-- 95 section 4. -/
theorem test_decode_opcodeError :
    decode 0x00000000#32 = .error .opcodeError ∧ decode 0xFFFFFFFF#32 = .error .opcodeError ∧
    decode 0x0000000F#32 = .error .opcodeError ∧ decode 0x0000100F#32 = .error .opcodeError ∧
    decode 0x00000073#32 = .error .opcodeError ∧ decode 0x00100073#32 = .error .opcodeError ∧
    decode 0x0000202F#32 = .error .opcodeError ∧ decode 0x00000032#32 = .error .opcodeError := by decide

/-- 95 section 4. -/
theorem test_decode_functError :
    decode 0x02940933#32 = .error .functError ∧ decode 0x40941933#32 = .error .functError ∧
    decode 0x80000033#32 = .error .functError ∧ decode 0x02009093#32 = .error .functError ∧
    decode 0x40001013#32 = .error .functError ∧ decode 0x20005013#32 = .error .functError ∧
    decode 0x00003003#32 = .error .functError ∧ decode 0x00006003#32 = .error .functError ∧
    decode 0x00001067#32 = .error .functError ∧ decode 0x00003023#32 = .error .functError ∧
    decode 0x00002063#32 = .error .functError := by decide

/-- 95 section 4: `W[31:25]` is not consulted. -/
theorem test_decode_funct7_ignored : decode 0xFE000013#32 = .ok (.addi 0 0 4064) ∧
    decode 0xFE007013#32 = .ok (.andi 0 0 4064) ∧ decode 0xFFFFF037#32 = .ok (.lui 0 1048575) := by decide

/-- 95 section 14. -/
theorem test_encode : encode (.sra 31 31 31) = 0x41FFDFB3#32 ∧ encode (.addi 31 31 4095) = 0xFFFF8F93#32 ∧
    encode (.lw 0 0 0) = 0x00002003#32 ∧ encode (.sw 31 31 4095) = 0xFFFFAFA3#32 ∧
    encode (.sb 0 0 2048) = 0x80000023#32 ∧ encode (.bgeu 31 31 8190) = 0xFFFFFFE3#32 ∧
    encode (.auipc 31 1048575) = 0xFFFFFF97#32 ∧ encode (.jal 31 2097150) = 0xFFFFFFEF#32 ∧
    encode (.jal 0 2) = 0x0020006F#32 := by decide

/-- The rows of spec/opcode_table.json with every variable bit zero. -/
theorem test_decodeTableWord : decodeTableWord 32 0x00000033 = some (.add 0 0 0) ∧
    decodeTableWord 32 0x40005013 = some (.srai 0 0 1024) ∧ decodeTableWord 32 0x0000006F = some (.jal 0 0) ∧
    decodeTableWord 32 0 = none := by decide

/-! ## The text form (95 section 5) -/

theorem test_text_ok : decodeText "00000000100101000000100100110011".toList = .ok (.add 18 8 9) ∧
    decodeText "11111111111100000000000010010011".toList = .ok (.addi 1 0 4095) := by decide

theorem test_text_formatError :
    ∀ t ∈ ["0000000010010100000010010011001",
      "000000001001010000001001001100110",
      "",
      "xxxxxxxxxxxxxxxxxxxxxxxxxxxxxxxxxxxxxxxx"],
      decodeText t.toList = .error .formatError := by decide

theorem test_text_opcodeError :
    ∀ t ∈ ["xxxxxxxxxxxxxxxxxxxxxxxxxxxxxxxx",
      "0000000010010100000010010011001x",
      "0000000010010100000020010011001x"],
      decodeText t.toList = .error .opcodeError := by decide

theorem test_text_functError :
    ∀ t ∈ ["x0000000100101000000100100110011",
      "000000001001010000x0100100110011",
      "x0000000110000001001000100010011"],
      decodeText t.toList = .error .functError := by decide

theorem test_text_rdError :
    ∀ t ∈ ["00000000100101000000200100110011",
      "0000000010010a000000200100110011",
      "x11111111111000000000000x0010011",
      "1111111111111111111100x000110111"],
      decodeText t.toList = .error .rdError := by decide

theorem test_text_rs1Error :
    ∀ t ∈ ["0000000010010a000000100100110011",
      "00000000100z0a000000100100110011",
      "00000011110100x0001000x000100011"],
      decodeText t.toList = .error .rs1Error := by decide

theorem test_text_rs2Error :
    ∀ t ∈ ["00000000100z01000000100100110011",
      "000000111x0100000010000000100011"],
      decodeText t.toList = .error .rs2Error := by decide

theorem test_text_immError :
    ∀ t ∈ ["x1111111111100000000000010010011",
      "11111111111x00000000000010010011",
      "00000000x10000001001000100010011",
      "1111111111111x111111001000110111",
      "111111111111111111x1001000110111",
      "0000001111010000001000x000100011",
      "00x00011110100000010000000100011",
      "000000001001010000000100x1100011",
      "000000001000000x0000000101101111"],
      decodeText t.toList = .error .immError := by decide

/-! ## One step, register and immediate ALU (95 sections 6 and 7) -/

theorem test_add_wraps : reg1 3 (at_ 0 [(1, 0xFFFFFFFF#32), (2, 1#32)] 0x002081B3) = some 0#32 := by
  decide

theorem test_add_same_register : reg1 1 (at_ 0 [(1, 0x40000001#32)] 0x001080B3) = some 0x80000002#32 := by
  decide

theorem test_sub_borrows : reg1 3 (at_ 0 [(1, 0#32), (2, 1#32)] 0x402081B3) = some 0xFFFFFFFF#32 := by
  decide

theorem test_sub_order : reg1 3 (at_ 0 [(1, 0x80000000#32), (2, 1#32)] 0x402081B3) = some 0x7FFFFFFF#32 := by
  decide

theorem test_xor : reg1 3 (at_ 0 [(1, 0xFF00FF00#32), (2, 0x0FF00FF0#32)] 0x0020C1B3) = some 0xF0F0F0F0#32 := by
  decide

theorem test_or : reg1 3 (at_ 0 [(1, 0xFF00FF00#32), (2, 0x0FF00FF0#32)] 0x0020E1B3) = some 0xFFF0FFF0#32 := by
  decide

theorem test_and : reg1 3 (at_ 0 [(1, 0xFF00FF00#32), (2, 0x0FF00FF0#32)] 0x0020F1B3) = some 0x0F000F00#32 := by
  decide

theorem test_sll_by_32 : reg1 3 (at_ 0 [(1, 0xDEADBEEF#32), (2, 32#32)] 0x002091B3) = some 0xDEADBEEF#32 := by
  decide

theorem test_sll_low_five_bits : reg1 3 (at_ 0 [(1, 1#32), (2, 0xFFFFFFE1#32)] 0x002091B3) = some 2#32 := by
  decide

theorem test_srl : reg1 3 (at_ 0 [(1, 0xFFFFF000#32), (2, 4#32)] 0x0020D1B3) = some 0x0FFFFF00#32 := by
  decide

theorem test_sra : reg1 3 (at_ 0 [(1, 0xFFFFF000#32), (2, 4#32)] 0x4020D1B3) = some 0xFFFFFF00#32 := by
  decide

theorem test_sra_positive : reg1 3 (at_ 0 [(1, 0x7FFFFFFF#32), (2, 30#32)] 0x4020D1B3) = some 1#32 := by
  decide

theorem test_slt_signed : reg1 3 (at_ 0 [(1, 0xFFFFFFFF#32), (2, 1#32)] 0x0020A1B3) = some 1#32 := by
  decide

theorem test_slt_equal : reg1 3 (at_ 0 [(1, 5#32), (2, 5#32)] 0x0020A1B3) = some 0#32 := by
  decide

theorem test_sltu_unsigned : reg1 3 (at_ 0 [(1, 0xFFFFFFFF#32), (2, 1#32)] 0x0020B1B3) = some 0#32 := by
  decide

theorem test_sltu_x0 : reg1 3 (at_ 0 [(2, 7#32)] 0x002031B3) = some 1#32 := by
  decide

theorem test_add_x0_hardwired : reg1 0 (at_ 0 [(1, 5#32), (2, 6#32)] 0x00208033) = some 0#32 := by
  decide

theorem test_add_x0_ordinary : reg1 0 (at_ 0 [(1, 5#32), (2, 6#32)] 0x00208033 [] false) = some 11#32 := by
  decide

theorem test_addi_no_sign_extension : reg1 1 (at_ 0 [] 0xFFF00093) = some 4095#32 := by
  decide

theorem test_addi_wraps : reg1 1 (at_ 0 [(1, 0xFFFFFFFF#32)] 0x00108093) = some 0#32 := by
  decide

theorem test_xori : reg1 2 (at_ 0 [(1, 0xFFFFFFFF#32)] 0xFFF0C113) = some 0xFFFFF000#32 := by
  decide

theorem test_ori : reg1 2 (at_ 0 [(1, 0x12345000#32)] 0x6F80E113) = some 0x123456F8#32 := by
  decide

theorem test_andi : reg1 2 (at_ 0 [(1, 0xFFFFFFFF#32)] 0xFFF0F113) = some 0x00000FFF#32 := by
  decide

theorem test_slli : reg1 2 (at_ 0 [(1, 3#32)] 0x01F09113) = some 0x80000000#32 := by
  decide

theorem test_srli : reg1 2 (at_ 0 [(1, 0xFFFFFFFF#32)] 0x0010D113) = some 0x7FFFFFFF#32 := by
  decide

theorem test_srai : reg1 2 (at_ 0 [(1, 0x80000000#32)] 0x41F0D113) = some 0xFFFFFFFF#32 := by
  decide

theorem test_srai_by_0 : reg1 2 (at_ 0 [(1, 0x80000001#32)] 0x4000D113) = some 0x80000001#32 := by
  decide

theorem test_slti_negative : reg1 2 (at_ 0 [(1, 0xFFFFFFFF#32)] 0x0000A113) = some 1#32 := by
  decide

theorem test_slti_4095 : reg1 2 (at_ 0 [(1, 4094#32)] 0xFFF0A113) = some 1#32 := by
  decide

theorem test_sltiu_4095 : reg1 2 (at_ 0 [(1, 0xFFFFFFFF#32)] 0xFFF0B113) = some 0#32 := by
  decide

theorem test_sltiu_1 : reg1 2 (at_ 0 [(1, 0#32)] 0x0010B113) = some 1#32 := by
  decide

/-! ## One step, loads and stores (95 sections 8 and 10) -/

theorem test_lb_sign : reg1 2 (at_ 0 [] 0x00000103 [(0, 0x12345680)]) = some 0xFFFFFF80#32 := by
  decide

theorem test_lb_low_byte : reg1 2 (at_ 0 [] 0x00000103 [(0, 0xFFFFFF00)]) = some 0#32 := by
  decide

theorem test_lh_sign : reg1 2 (at_ 0 [] 0x00001103 [(0, 0x00008000)]) = some 0xFFFF8000#32 := by
  decide

theorem test_lh_positive : reg1 2 (at_ 0 [] 0x00001103 [(0, 0xFFFF7FFF)]) = some 0x00007FFF#32 := by
  decide

theorem test_lw_negative_base : reg1 2 (at_ 0 [(1, 0xFFFFFFFF#32)] 0x0010A103 [(0, 0x11223344)]) = some 0x11223344#32 := by
  decide

theorem test_lw_past_the_end : all1 2 (at_ 0 [(1, 2047#32), (2, 9#32)] 0x0010A103) =
    some (9#32, 0#32, some .memIndexFault) := by decide

theorem test_lbu : reg1 2 (at_ 0 [] 0x00004103 [(0, 0xFFFFFFFF)]) = some 0x000000FF#32 := by
  decide

theorem test_lhu : reg1 2 (at_ 0 [] 0x00005103 [(0, 0xFFFFFFFF)]) = some 0x0000FFFF#32 := by
  decide

theorem test_sb : slot1 7 (at_ 0 [(2, 0xABCDEF80#32)] 0x002003A3 [(7, 0x11223344)]) = some 0x11223380#32 := by decide

theorem test_sb_fault : all1 1 (at_ 0 [(1, 0xFFFFFFFF#32)] 0x00108023) =
    some (0xFFFFFFFF#32, 0#32, some .memIndexFault) := by decide

theorem test_sh : slot1 7 (at_ 0 [(2, 0xABCDEF80#32)] 0x002013A3 [(7, 0x11223344)]) = some 0x1122EF80#32 := by decide

theorem test_sw_negative_base : slot1 0 (at_ 0 [(1, 0xFFFFF001#32), (2, 0xAA#32)] 0xFE20AFA3) = some 0xAA#32 := by
  decide

/-- Storing what an unlisted slot reads as removes the entry. -/
theorem test_sw_zero : seen (fun t => t.mem) (step (at_ 0 [] 0x000024A3 [(9, 77)])) = some [] := by decide

/-! ## One step, Jalr (95 section 9) -/

theorem test_jalr_read_before_link : all1 1 (at_ 8 [(1, 40#32)] 0x000080E7) = some (12#32, 40#32, none) := by decide

theorem test_jalr_number_32 : all1 1 (at_ 8 [] 0x001F80E7) = some (0#32, 8#32, some .regIndexFault) := by decide

/-! ## One step, branches (95 section 11: at pc 100 with offset 16) -/

theorem test_beq : pc1 (at_ 100 [(1, 0xFFFFFFFF#32), (2, 1#32)] 0x00208863) = some 104#32 ∧
    pc1 (at_ 100 [(1, 1#32), (2, 0xFFFFFFFF#32)] 0x00208863) = some 104#32 ∧
    pc1 (at_ 100 [(1, 7#32), (2, 7#32)] 0x00208863) = some 116#32 := by decide

theorem test_bne : pc1 (at_ 100 [(1, 0xFFFFFFFF#32), (2, 1#32)] 0x00209863) = some 116#32 ∧
    pc1 (at_ 100 [(1, 1#32), (2, 0xFFFFFFFF#32)] 0x00209863) = some 116#32 ∧
    pc1 (at_ 100 [(1, 7#32), (2, 7#32)] 0x00209863) = some 104#32 := by decide

theorem test_blt : pc1 (at_ 100 [(1, 0xFFFFFFFF#32), (2, 1#32)] 0x0020C863) = some 116#32 ∧
    pc1 (at_ 100 [(1, 1#32), (2, 0xFFFFFFFF#32)] 0x0020C863) = some 104#32 ∧
    pc1 (at_ 100 [(1, 7#32), (2, 7#32)] 0x0020C863) = some 104#32 := by decide

theorem test_bge : pc1 (at_ 100 [(1, 0xFFFFFFFF#32), (2, 1#32)] 0x0020D863) = some 104#32 ∧
    pc1 (at_ 100 [(1, 1#32), (2, 0xFFFFFFFF#32)] 0x0020D863) = some 116#32 ∧
    pc1 (at_ 100 [(1, 7#32), (2, 7#32)] 0x0020D863) = some 116#32 := by decide

theorem test_bltu : pc1 (at_ 100 [(1, 0xFFFFFFFF#32), (2, 1#32)] 0x0020E863) = some 104#32 ∧
    pc1 (at_ 100 [(1, 1#32), (2, 0xFFFFFFFF#32)] 0x0020E863) = some 116#32 ∧
    pc1 (at_ 100 [(1, 7#32), (2, 7#32)] 0x0020E863) = some 104#32 := by decide

theorem test_bgeu : pc1 (at_ 100 [(1, 0xFFFFFFFF#32), (2, 1#32)] 0x0020F863) = some 116#32 ∧
    pc1 (at_ 100 [(1, 1#32), (2, 0xFFFFFFFF#32)] 0x0020F863) = some 104#32 ∧
    pc1 (at_ 100 [(1, 7#32), (2, 7#32)] 0x0020F863) = some 116#32 := by decide

theorem test_beq_forward : pc1 (at_ 4 [] 0xFE000FE3) = some 8194#32 := by decide

/-! ## One step, Lui, Auipc, Jal (95 section 12) -/

theorem test_lui : all1 1 (at_ 0 [] 0xFFFFF0B7) = some (0xFFFFF000#32, 4#32, none) := by decide

theorem test_auipc_wraps : seen (fun t => (t.reg 1, t.pc)) (exec (.auipc 1 0xFFFFF) (withProgram [] 4096)) =
    some (0#32, 4100#32) := by decide

theorem test_auipc_unrounded : all1 1 (at_ 6 [] 0x00001097) = some (0x1006#32, 10#32, none) := by decide

theorem test_jal_forward : all1 1 (at_ 8 [] 0xFFFFF0EF) = some (12#32, 2097158#32, none) := by decide

theorem test_jal_unrounded : all1 1 (at_ 6 [] 0x008000EF) = some (10#32, 14#32, none) := by decide

/-! ## The engine (95 sections 2.10 and 13) -/

theorem test_reset_step : stop (step State.reset) = some .programCounterOutOfBounds := by decide

theorem test_fetch_index : (withProgram [.word 1, .word 2, .word 3] 11).fetch = some (.word 3) ∧
    stop (step (withProgram [.word 1, .word 2, .word 3] 12)) = some .programCounterOutOfBounds := by decide

theorem test_step_errors : stop (step (withProgram [.word 0x73])) = some .opcodeError ∧
    stop (step (withProgram [.word 0x02940933])) = some .functError ∧
    stop (step (withProgram [.text "".toList])) = some .formatError := by decide

theorem test_latch : stop (step (withProgram [.word 0x13] 0 (some .memIndexFault))) = some .memIndexFault ∧
    stop (step (withProgram [.word 0x13] 0 (some .regIndexFault))) = some .regIndexFault := by decide

theorem test_hostStep_fault : out1 (at_ 8 [] 0x001F80E7) = .failed .regIndexFault ∧
    out1 (at_ 0 [(1, 1#32)] 0x7FF0A103) = .failed .memIndexFault ∧ out1 (at_ 0 [] 0x13) = .success := by decide

/-- A well-formed text is loaded as its word, a malformed one is kept. -/
theorem test_loadText : loadText ["00000000100101000000100100110011".toList, "x".toList] =
    [.word 0x00940933, .text "x".toList] := by decide

/-- The word placed where the next step fetches is the instruction that step runs. -/
theorem test_withFetchWord : seen (fun t => (t.reg 1, t.pc)) (step (State.reset.withFetchWord 32 0xFFF00093)) =
    some (4095#32, 4#32) ∧
    seen (fun t => (t.reg 1, t.pc)) (step ((withProgram [] 9).withFetchWord 32 0xFFF00093)) = some (4095#32, 13#32) := by
  decide

/-! ## Witnesses: the hypotheses of every obligation are met, at the boundaries of each clause -/

theorem witness_DecodeEncodeRoundTrip : ∀ i ∈ [Instr.add 31 31 31, .addi 0 0 0, .addi 31 31 4095, .slli 1 1 31,
    .srai 1 1 1024, .srai 1 1 1055, .sw 31 31 4095, .beq 31 31 8190, .lui 31 1048575, .jal 31 2097150],
    i.wf = true := by decide

theorem witness_EncodeDecodeRoundTrip : decode 0xFFFFFFEF#32 = .ok (.jal 31 2097150) ∧
    decode 0x00000033#32 = .ok (.add 0 0 0) := by decide

theorem witness_DecodedImmediatesInRange : decode 0xFFFFFFE3#32 = .ok (.bgeu 31 31 8190) ∧
    decode 0x41F0D113#32 = .ok (.srai 2 1 1055) := by decide

/-- Either side of the equivalence holds of some word and fails of some word. -/
theorem witness_OpcodeTableSelectsOperation : 0x40425393#32 &&& (Instr.srai 0 0 0).row.1 = (Instr.srai 0 0 0).row.2 ∧
    0x00425413#32 &&& (Instr.srai 0 0 0).row.1 ≠ (Instr.srai 0 0 0).row.2 := by decide

theorem witness_WordDecodeErrors : decode 0x00000073#32 = .error .opcodeError ∧
    decode 0x02000033#32 = .error .functError ∧ decode 0x02001013#32 = .error .functError ∧
    decode 0x02005013#32 = .error .functError ∧ decode 0x00003003#32 = .error .functError ∧
    decode 0x00001067#32 = .error .functError ∧ decode 0x00003023#32 = .error .functError ∧
    decode 0x00002063#32 = .error .functError := by decide

theorem witness_TextFormAgreesWithWords : textOk "01000000100001001000100110110011".toList = true ∧
    (wordText 0x80000001#32)[0]? = some '1' ∧ (wordText 0x80000001#32)[31]? = some '1' ∧
    (wordText 0x80000001#32)[1]? = some '0' := by decide

theorem witness_FormatErrorIffWrongLength : (withProgram [.text "0101".toList]).fault = none ∧
    (withProgram [.text "0101".toList]).fetch = some (.text "0101".toList) ∧ "0101".toList.length ≠ 32 ∧
    (withProgram [.text "xxxxxxxxxxxxxxxxxxxxxxxxxxxxxxxx".toList]).fetch =
      some (.text "xxxxxxxxxxxxxxxxxxxxxxxxxxxxxxxx".toList) ∧
    "xxxxxxxxxxxxxxxxxxxxxxxxxxxxxxxx".toList.length = 32 ∧
    (withProgram [.word 0]).fetch = some (.word 0) := by decide

theorem witness_TextErrorsNameTheirField :
    decodeText "00000000100101000000200100110011".toList = .error .rdError ∧
    decodeText "0000000010010a000000100100110011".toList = .error .rs1Error ∧
    decodeText "00000000100z01000000100100110011".toList = .error .rs2Error ∧
    decodeText "11111111111x00000000000010010011".toList = .error .immError ∧
    decodeText "0000001111010000001000x000100011".toList = .error .immError ∧
    decodeText "1111111111111111111x001000110111".toList = .error .immError ∧
    decodeText "00000000100101000000100100110011".toList = .ok (.add 18 8 9) := by decide

/-- Each side of each clause: the earlier defect wins, and a text with an earlier defect has the later one too. -/
theorem witness_TextErrorOrder :
    decodeText "0000000010010a000000200100110011".toList = .error .rdError ∧
    decodeText "00000000100z0a000000100100110011".toList = .error .rs1Error ∧
    decodeText "x000000010010100000010010011001x".toList = .error .opcodeError ∧
    decodeText "x0000000100101000000200100110011".toList = .error .functError := by decide

theorem witness_TextOpcodeAndFunctErrors : "00000000100101000000100100110011".toList.length = 32 ∧
    textGroup "00000000100101000000100100110011".toList = some .register ∧
    textGroup "0000000010010100000010010011001x".toList = none ∧
    decodeText "x0000000110000001001000100010011".toList = .error .functError ∧
    decodeText "00000000000000000011000000000011".toList = .error .functError := by decide

/-- A step that completes, and one that enters each fault. -/
theorem witness_StepRunsDecodedInstruction : (withProgram [.word 0, .word 0x00900093] 7).fault = none ∧
    (withProgram [.word 0, .word 0x00900093] 7).program[(withProgram [.word 0, .word 0x00900093] 7).pc.toNat / 4]? =
      some (.word 0x00900093) ∧ (Slot.word 0x00900093).decode = .ok (.addi 1 0 9) ∧
    seen (fun t => t.fault) (exec (.addi 1 0 9) (withProgram [.word 0, .word 0x00900093] 7)) = some none ∧
    (withProgram [.word 0x001F80E7]).fault = none ∧
    (withProgram [.word 0x001F80E7]).program[(withProgram [.word 0x001F80E7]).pc.toNat / 4]? =
      some (.word 0x001F80E7) ∧ (Slot.word 0x001F80E7).decode = .ok (.jalr 1 31 1) ∧
    seen (fun t => t.fault) (exec (.jalr 1 31 1) (withProgram [.word 0x001F80E7])) = some (some .regIndexFault) ∧
    (Slot.word 0xFFF02103).decode = .ok (.lw 2 0 4095) ∧
    seen (fun t => t.fault) (exec (.lw 2 0 4095) (withProgram [.word 0xFFF02103])) = some (some .memIndexFault) := by
  decide

theorem witness_LatchedFaultIsReportedAgain : (withProgram [] 0 (some .memIndexFault)).fault = some .memIndexFault ∧
    (withProgram [] 0 (some .regIndexFault)).fault = some .regIndexFault := by decide

/-- Index 2 is the last of three slots, index 3 is past it. -/
theorem witness_PastTheEndIsOutOfBounds : (withProgram [.word 0, .word 0, .word 0] 12).fault = none ∧
    (withProgram [.word 0, .word 0, .word 0] 12).program.length ≤ (withProgram [.word 0, .word 0, .word 0] 12).pc.toNat / 4 ∧
    ¬ (withProgram [.word 0, .word 0, .word 0] 11).program.length ≤ (withProgram [.word 0, .word 0, .word 0] 11).pc.toNat / 4 := by
  decide

theorem witness_DecodeErrorChangesNothing : (withProgram [.word 0x73]).fault = none ∧
    (withProgram [.word 0x73]).program[(withProgram [.word 0x73]).pc.toNat / 4]? = some (.word 0x73) ∧
    (Slot.word 0x73).decode = .error .opcodeError ∧
    (withProgram [.text "x".toList]).program[(withProgram [.text "x".toList]).pc.toNat / 4]? = some (.text "x".toList) ∧
    (Slot.text "x".toList).decode = .error .formatError := by decide

/-- One state for each way to fail: end of program, decode error, latched fault, fault entry. -/
theorem witness_FailedStepChangesOnlyTheLatch : out1 (withProgram []) ≠ .success ∧
    out1 (withProgram [.word 0x73]) ≠ .success ∧ out1 (withProgram [] 0 (some .memIndexFault)) ≠ .success ∧
    out1 (at_ 8 [] 0x001F80E7) ≠ .success ∧ out1 (at_ 0 [(1, 1#32)] 0x7FF0A103) ≠ .success := by decide

theorem witness_FailureRepeats : hostStep (withProgram []) = (withProgram [], .failed .programCounterOutOfBounds) ∧
    (hostStep (at_ 8 [] 0x001F80E7)).2 = .failed .regIndexFault := by decide

theorem witness_OnlyDestinationRegisterChanges : (∃ t, exec (.add 3 1 2) (withProgram []) = .next t) ∧
    destReg (.add 3 1 2) ≠ some 4 ∧ (∃ t, exec (.beq 1 2 8) (withProgram []) = .next t) ∧
    destReg (.beq 1 2 8) ≠ some 1 := ⟨⟨_, rfl⟩, by decide, ⟨_, rfl⟩, by decide⟩

theorem witness_OnlyStoredSlotChanges : (∃ t, exec (.sw 0 1 2047) (withProgram []) = .next t) ∧
    storeSlot (withProgram []) (.sw 0 1 2047) = some 2047 ∧ storeSlot (withProgram []) (.sw 0 1 2047) ≠ some 2046 ∧
    (∃ t, exec (.lw 1 0 5) (withProgram []) = .next t) ∧ storeSlot (withProgram []) (.lw 1 0 5) ≠ some 5 :=
  ⟨⟨_, rfl⟩, by decide, by decide, ⟨_, rfl⟩, by decide⟩

theorem witness_ParametersNeverChange : ∃ t, step (withProgram [.word 0x00502023]) = .next t := ⟨_, rfl⟩

theorem witness_IndexFaultsSetTheLatch : memAddress (withProgram []) (.lw 1 0 2048) = some 2048 ∧
    memAddress (at_ 0 [(1, 0xFFFFFFFF#32)] 0) (.sb 1 0 0) = some (-1) ∧ jalrNumber (.jalr 1 31 1) = some 32 := by
  decide

theorem witness_LatchUnchangedWithoutIndexFault : (∃ t, exec (.lw 1 0 2047) (withProgram []) = .next t) ∧
    memAddress (withProgram []) (.lw 1 0 2047) = some 2047 ∧ jalrNumber (.lw 1 0 2047) = none ∧
    memAddress (withProgram []) (.sb 0 1 0) = some 0 ∧ (∃ t, exec (.jalr 1 31 0) (withProgram []) = .next t) ∧
    memAddress (withProgram []) (.jalr 1 31 0) = none ∧ jalrNumber (.jalr 1 31 0) = some 31 :=
  ⟨⟨_, rfl⟩, by decide, by decide, by decide, ⟨_, rfl⟩, by decide, by decide⟩

theorem witness_NextPcOfEveryInstruction : ∀ i ∈ [Instr.add 1 2 3, .sw 0 1 0, .beq 0 0 8, .bne 0 0 8, .jal 1 8,
    .jalr 1 31 0], (withProgram []).fault = none ∧ seen (fun t => t.fault) (exec i (withProgram [])) = some none := by decide

theorem witness_InvariantKeptByEveryStep : (withProgram [.word 0x00502023]).Inv ∧
    ∃ t, step (withProgram [.word 0x00502023]) = .next t :=
  ⟨⟨by decide, fun _ => by decide, by decide⟩, ⟨_, rfl⟩⟩

/-- The longest program that is accepted and the shortest that is refused. -/
theorem witness_ConstructGivesResetValues : ([] : List Slot).length < 2 ^ 29 ∧
    (List.replicate (2 ^ 29 - 1) (Slot.word 0)).length < 2 ^ 29 ∧
    2 ^ 29 ≤ (List.replicate (2 ^ 29) (Slot.word 0)).length := by
  simp only [List.length_replicate, List.length_nil]; omega

theorem witness_RegisterWriteThenRead : (withProgram []).x0Hardwired = true ∧
    ({ withProgram [] with x0Hardwired := false } : State).x0Hardwired = false ∧ (1#5 : RegNum) ≠ 0#5 ∧
    (0#5 : RegNum) ≠ 31#5 := by decide

theorem witness_SnapshotsShowTheState : (31 : Nat) < 32 ∧ (2047 : Nat) < 2048 ∧ (withProgram []).x0Hardwired = true ∧
    (hostStep (withProgram [])).2 ≠ .success := by decide

theorem witness_RunEndsInAStandingFailure : (hostRun 2 (withProgram [.word 0x13])).2 =
    some (.failed .programCounterOutOfBounds) ∧ (hostRun 1 (withProgram [.word 0x73])).2 = some (.failed .opcodeError) := by
  decide

/-- A `W[31:25]` other than zero. -/
theorem witness_ImmediateShifts : (0b0100000#7 : BitVec 7) ≠ 0b0000000#7 := by decide

/-- The last slot, the first slot, one past the last, one before the first. -/
theorem witness_ByteLoads : ((2047 : Nat) : Int) = ((withProgram []).reg 0).toInt + ((2047#12).toNat : Int) ∧
    ((0 : Nat) : Int) = ((withProgram []).reg 0).toInt + ((0#12).toNat : Int) ∧
    2047 < ((withProgram []).reg 0).toInt + ((2048#12).toNat : Int) ∧
    ((at_ 0 [(1, 0xFFFFFFFF#32)] 0).reg 1).toInt + ((0#12).toNat : Int) < 0 := by decide

theorem witness_HalfLoads : ((2047 : Nat) : Int) = ((at_ 0 [(1, 0xFFFFFFFF#32)] 0).reg 1).toInt + ((2048#12).toNat : Int) ∧
    2047 < ((at_ 0 [(1, 1#32)] 0).reg 1).toInt + ((2047#12).toNat : Int) ∧
    ((at_ 0 [(1, 0x80000000#32)] 0).reg 1).toInt + ((4095#12).toNat : Int) < 0 := by decide

theorem witness_WordLoad : ((2047 : Nat) : Int) = ((at_ 0 [(1, 2047#32)] 0).reg 1).toInt + ((0#12).toNat : Int) ∧
    2047 < ((at_ 0 [(1, 0x7FFFFFFF#32)] 0).reg 1).toInt + ((4095#12).toNat : Int) ∧
    ((at_ 0 [(1, 0xFFFFFFFF#32)] 0).reg 1).toInt + ((0#12).toNat : Int) < 0 := by decide

/-- The largest target number, reached both ways. -/
theorem witness_JalrJumpsToNumberedRegister : (31#5 : RegNum).toNat = (31#5 : RegNum).toNat + (0#12).toNat ∧
    (31#5 : RegNum).toNat = (0#5 : RegNum).toNat + (31#12).toNat ∧
    (0#5 : RegNum).toNat = (0#5 : RegNum).toNat + (0#12).toNat := by decide

theorem witness_JalrBeyondTheRegisterFileFaults : 31 < (31#5 : RegNum).toNat + (1#12).toNat ∧
    31 < (0#5 : RegNum).toNat + (32#12).toNat := by decide

theorem witness_StoresReplaceLowBits : Memory.wf (at_ 0 [] 0 [(3, 5), (2047, 1)]).mem ∧
    ((2047 : Nat) : Int) = ((at_ 0 [] 0 [(3, 5), (2047, 1)]).reg 0).toInt + ((2047#12).toNat : Int) ∧
    2047 < ((at_ 0 [] 0 [(3, 5), (2047, 1)]).reg 0).toInt + ((2048#12).toNat : Int) ∧
    ((at_ 0 [(1, 0xFFFFFFFF#32)] 0).reg 1).toInt + ((0#12).toNat : Int) < 0 := by decide

/-- The last slot stored to by each of the three stores, and addressed by the load after it; the load's destination may
be the hardwired register 0. -/
theorem witness_LoadsSeeTheLastStore : Memory.wf (at_ 0 [] 0 [(3, 5), (2047, 1)]).mem ∧
    slotOf ((at_ 0 [] 0 [(3, 5), (2047, 1)]).ea 0 2047) = some 2047 ∧
    (∃ t, exec (.sw 0 1 2047) (at_ 0 [] 0 [(3, 5), (2047, 1)]) = .next t ∧ slotOf (t.ea 0 2047) = some 2047) ∧
    (∃ t, exec (.sh 0 1 2047) (at_ 0 [] 0 [(3, 5), (2047, 1)]) = .next t ∧ slotOf (t.ea 0 2047) = some 2047) ∧
    (∃ t, exec (.sb 0 1 2047) (at_ 0 [] 0 [(3, 5), (2047, 1)]) = .next t ∧ slotOf (t.ea 0 2047) = some 2047) :=
  ⟨by decide, by decide, ⟨_, rfl, by decide⟩, ⟨_, rfl, by decide⟩, ⟨_, rfl, by decide⟩⟩

/-- The largest pc the premise allows. -/
theorem witness_OnlyJalrGoesBackwards : (Instr.jal 1 2097150).wf = true ∧ jalrNumber (.jal 1 2097150) = none ∧
    (withProgram [] 0x7FFFFFFF).pc.toNat < 2 ^ 31 ∧ ∃ t, exec (.jal 1 2097150) (withProgram [] 0x7FFFFFFF) = .next t :=
  ⟨by decide, by decide, by decide, ⟨_, rfl⟩⟩

theorem witness_FetchedPcNeverWraps : (withProgram [.word 0, .word 0] 7).program.length < 2 ^ 29 ∧
    (withProgram [.word 0, .word 0] 7).fetch = some (.word 0) ∧ (Instr.jal 1 2097150).wf = true ∧
    jumpOffset (.jal 1 2097150) = some 2097150 ∧ (Instr.beq 1 1 8190).wf = true ∧
    jumpOffset (.beq 1 1 8190) = some 8190 := by decide

theorem witness_ExecutionCannotReadTheProgram : ∃ t, exec (.auipc 1 1) (withProgram [.word 0]) = .next t := ⟨_, rfl⟩

/-- A program that writes register 1 and never register 0. -/
theorem witness_SettingsAgreeWhenX0IsNeverWritten : (withProgram [.word 0x00900093]).regs[0] = 0#32 ∧
    ∀ x ∈ (withProgram [.word 0x00900093]).program, ∀ i, x.decode = .ok i → destReg i ≠ some 0#5 := by
  refine ⟨by decide, fun x hx i h => ?_⟩
  have hd : (Slot.word 0x00900093).decode = .ok (.addi 1 0 9) := by decide
  have hx' : x = .word 0x00900093 := by simpa [withProgram, State.initial] using hx
  subst hx'
  rw [hd] at h
  cases h
  decide

theorem witness_RunsKeepProgramAndInvariant : (withProgram [.word 0x00900093, .word 0x00502023]).Inv ∧
    ∃ t, core.run 2 (withProgram [.word 0x00900093, .word 0x00502023]) = .next t :=
  ⟨⟨by decide, fun _ => by decide, by decide⟩, ⟨_, rfl⟩⟩

end Sys2Proof.Tests
end

section
/-! The text form of a word: a word's text passes every check of the text decoder that its word passes, so the two
decoders agree (spec/30_encoding.md R82, R84); and the correspondence of words and well-formed texts is one-to-one. -/

namespace Sys2Proof

section
variable (w : Word)

/-! ## The correspondence of words and well-formed texts -/

theorem textOk_iff (t : List Char) : textOk t = true ↔ t.length = 32 ∧ t.all isBit = true := by
  simp [textOk]

theorem textWord_wordText : textWord (wordText w) = w := by
  apply BitVec.eq_of_toNat_eq
  rw [textWord, wordText, magnitude_bitsText, BitVec.toNat_ofNat, Nat.mod_mod, Nat.mod_eq_of_lt w.isLt]

theorem wordText_textWord {t : List Char} (h : textOk t = true) : wordText (textWord t) = t := by
  obtain ⟨hlen, hbits⟩ := (textOk_iff t).1 h
  have hlt : magnitude t < 2 ^ 32 := hlen ▸ magnitude_lt t
  calc wordText (textWord t)
      = bitsText t.length (magnitude t) := by
        rw [wordText, textWord, BitVec.toNat_ofNat, Nat.mod_eq_of_lt hlt, hlen]
    _ = t := bitsText_magnitude t hbits

/-- Character `k` is the text of the one-bit field at position `k`. -/
theorem getElem?_eq_textField (t : List Char) (k : Nat) : t[k]? = (textField t k 1)[0]? := by
  simp [textField]

theorem wordText_getElem? {k : Nat} (hk : k < 32) :
    (wordText w)[k]? = some (if w.getLsbD (31 - k) = true then '1' else '0') := by
  have hbit : (w.getLsbD (31 - k) = true) ↔ w.toNat / 2 ^ (31 - k) % 2 = 1 := by
    rw [BitVec.getLsbD, Nat.testBit_eq_decide_div_mod_eq, decide_eq_true_iff]
  rw [getElem?_eq_textField, textField_wordText w k 1 (31 - k) (by omega)]
  simp [bitsText, hbit]

/-! ## The checks of the text decoder on a word's text -/

theorem textFunct3_wordText : textBits 3 (wordText w) 17 = some (funct3Field w) :=
  textBits_wordText w 17 3 12 rfl

theorem textFunct7_wordText : textBits 7 (wordText w) 0 = some (funct7Field w) :=
  textBits_wordText w 0 7 25 rfl

theorem textField_wordText_isBit (first n : Nat) : (textField (wordText w) first n).all isBit = true := by
  have hw : ∀ c ∈ wordText w, isBit c = true := List.all_eq_true.1 (bitsText_isBit 32 w.toNat)
  exact List.all_eq_true.2 fun c hc => hw c (List.mem_of_mem_drop (List.mem_of_mem_take hc))

theorem immText_wordText_isBit (g : Group) : (g.immText (wordText w)).all isBit = true := by
  cases g <;> simp [Group.immText, textField_wordText_isBit, -List.all_eq_true]

/-- No character of a word's text is non-binary, so no operand check fails. -/
theorem textOperandError_wordText (g : Group) : textOperandError g (wordText w) = none := by
  simp [textOperandError, textField_wordText_isBit, immText_wordText_isBit, -List.all_eq_true]

/-- Where a word's text fails the funct check of a sub-group, the word is no instruction of it (R84, R123). -/
theorem decodeGroup_eq_functError {w : Word} {g : Group} (h : textFunctOk g (wordText w) = false) :
    decodeGroup g w = .error .functError := by
  have none_of {α : Type} {o : Option α} (ho : o.isSome = false) : o = none := by simpa using ho
  cases g <;> simp only [textFunctOk, textFunct3_wordText, textFunct7_wordText, reduceCtorEq] at h <;>
    simp only [decodeGroup]
  case register | load | jalr | store | branch => all_goals rw [none_of h]
  case immediateAlu =>
    by_cases hshift : funct3Field w = 0b001#3 ∨ funct3Field w = 0b101#3
    · rw [if_pos hshift] at h
      rw [none_of h]
    · rw [if_neg hshift] at h
      cases h

/-! ## The two decoders agree -/

theorem decodeText_wordText : decodeText (wordText w) = decode w := by
  rw [decodeText, if_neg (by simp [wordText_length]), textGroup_wordText]
  cases hg : groupOf (opcodeField w) with
  | none => simp only [decode, hg]
  | some g =>
    have hdecode : decode w = decodeGroup g w := by simp only [decode, hg]
    cases hfunct : textFunctOk g (wordText w) with
    | true => simp [hfunct, textOperandError_wordText, textWord_wordText]
    | false => simp [hfunct, hdecode, decodeGroup_eq_functError hfunct]

end

/-- Settles O6: the text of a word passes each check of the text decoder that the word decoder makes, a binary text is
the text of its value, and each character is a one-bit field. -/
theorem textFormAgreesWithWords : Obligations.TextFormAgreesWithWords :=
  ⟨fun w => ⟨textOk_wordText w, textWord_wordText w, decodeText_wordText w⟩, fun _ => wordText_textWord,
    fun w _ => wordText_getElem? w⟩

end Sys2Proof
end

section
/-! What a host step that is no Success leaves behind (spec/60_exceptions.md R273, R274). -/

namespace Sys2Proof.Machine

/-- A host step that is no Success leaves the state as it was or enters a fault from a clear latch (R273, R274). -/
theorem hostStep_not_success {s t : State} {r : Report} (h : hostStep s = (t, r)) (hr : r ≠ .success) :
    t = s ∨ ∃ f, s.fault = none ∧ t = s.takeFault f ∧ r = .failed f.report := by
  rcases hostStep_cases s with ⟨f, -, hs⟩ | ⟨-, -, hs⟩ | ⟨x, e, -, -, -, hs⟩ | ⟨x, i, u, -, -, -, -, -, hs⟩ |
    ⟨x, i, f, hclear, -, -, -, hs⟩ <;> rw [hs] at h <;> cases h
  case inr.inr.inr.inl => exact absurd rfl hr
  case inr.inr.inr.inr => exact .inr ⟨f, hclear, rfl, rfl⟩
  all_goals exact .inl rfl

/-- Settles O14: the entry on a fault writes the latch alone, and every other failure returns the state itself. -/
theorem failedStepChangesOnlyTheLatch : Obligations.FailedStepChangesOnlyTheLatch := by
  intro s t r h hr
  rcases hostStep_not_success h hr with rfl | ⟨f, hclear, rfl, rfl⟩
  · exact ⟨fun _ => rfl, fun _ => rfl, rfl, ⟨rfl, rfl⟩, .inl rfl⟩
  · exact ⟨fun _ => rfl, fun _ => rfl, rfl, ⟨rfl, rfl⟩, .inr ⟨f, hclear, rfl, rfl⟩⟩

end Sys2Proof.Machine
end

section
/-! The state an instruction can leave, as a case distinction with names, and what each case keeps of the state: the
named destination alone is written, the latch changes at the two index conditions alone, the pc moves by the
instruction's own rule, and the invariant is kept (spec/10_state.md R21 to R31). -/

namespace Sys2Proof.Machine

/-- `t` is a state that `exec i s` can answer with: `exec_cases` read off the answered state. -/
inductive Executes (i : Instr) (s : State) : State → Prop
  | finish (rd : RegNum) (v : Word) (hrd : destReg i = some rd) (hjump : jumpOffset i = none)
      (hjalr : jalrNumber i = none) : Executes i s (s.setReg rd v).advance
  | memFault (ea : Int) (hea : memAddress s i = some ea) (hout : ea < 0 ∨ 2047 < ea) :
      Executes i s (s.takeFault .memIndexFault)
  | regFault (n : Nat) (hn : jalrNumber i = some n) (hout : 31 < n) : Executes i s (s.takeFault .regIndexFault)
  | jalr (rd : RegNum) (n : Nat) (hrd : destReg i = some rd) (hn : jalrNumber i = some n) (hin : n ≤ 31)
      (hjump : jumpOffset i = none) : Executes i s ((s.setReg rd s.nextPc).setPc (s.reg (BitVec.ofNat 5 n)))
  | store (a : Nat) (v : Word) (hslot : storeSlot s i = some a) (ha : a < Config.memSlots) (hjump : jumpOffset i = none)
      (hjalr : jalrNumber i = none) : Executes i s ({ s with mem := Memory.write s.mem a v } : State).advance
  | taken (imm : Word) (hjump : jumpOffset i = some imm) (hjalr : jalrNumber i = none) :
      Executes i s (s.setPc (s.pc + imm))
  | passed (imm : Word) (hjump : jumpOffset i = some imm) (hjalr : jalrNumber i = none) : Executes i s s.advance
  | jal (rd : RegNum) (imm : Word) (hrd : destReg i = some rd) (hjump : jumpOffset i = some imm)
      (hjalr : jalrNumber i = none) : Executes i s ((s.setReg rd s.nextPc).setPc (s.pc + imm))

theorem executes_of_exec {i : Instr} {s t : State} (h : exec i s = .next t) : Executes i s t := by
  rcases exec_cases i s with ⟨rd, v, he, hrd, hjump, hjalr, -⟩ | ⟨ea, hea, hout, he, -⟩ | ⟨n, hn, hout, he, -⟩ |
    ⟨rd, n, hn, hin, hrd, he, hjump, -⟩ | ⟨a, v, ea, -, hea, hslot, he, -, hjump, hjalr⟩ |
    ⟨imm, hjump, hjalr, -, -, he | he⟩ | ⟨rd, imm, hjump, hjalr, -, hrd, he⟩ <;> rw [h] at he <;> cases he
  · exact .finish rd v hrd hjump hjalr
  · exact .memFault ea hea hout
  · exact .regFault n hn hout
  · exact .jalr rd n hrd hn hin hjump
  · exact .store a v hslot (slotOf_lt hea) hjump hjalr
  · exact .taken imm hjump hjalr
  · exact .passed imm hjump hjalr
  · exact .jal rd imm hrd hjump hjalr

/-- A step that answers a next state has run the instruction the fetched slot decodes to. -/
theorem executes_of_step {s t : State} (h : step s = .next t) :
    ∃ x i, s.fetch = some x ∧ x.decode = .ok i ∧ Executes i s t := by
  rcases step_cases s with ⟨f, -, hs⟩ | ⟨-, -, hs⟩ | ⟨x, e, -, -, -, hs⟩ | ⟨x, i, u, -, hx, hi, he, hs⟩ <;>
    rw [h] at hs <;> cases hs
  exact ⟨x, i, hx, hi, executes_of_exec he⟩

theorem executes_of_hostStep {s t : State} (h : hostStep s = (t, .success)) :
    ∃ x i, s.fetch = some x ∧ x.decode = .ok i ∧ Executes i s t := by
  rcases hostStep_cases s with ⟨f, -, hs⟩ | ⟨-, -, hs⟩ | ⟨x, e, -, -, -, hs⟩ | ⟨x, i, u, -, hx, hi, he, -, hs⟩ |
    ⟨x, i, f, -, -, -, -, hs⟩ <;> rw [h] at hs <;> cases hs
  exact ⟨x, i, hx, hi, executes_of_exec he⟩

/-! ## The parameters and register 0 -/

theorem Executes.sameParams {i : Instr} {s t : State} (h : Executes i s t) : SameParams s t := by
  cases h <;> simp [SameParams]

/-- A write that is discarded, or that names another register, leaves register 0 (R21). -/
theorem State.setReg_regs_zero (s : State) {i : RegNum} (v : Word) (h : s.x0Hardwired = true ∨ i ≠ 0#5) :
    (s.setReg i v).regs[0] = s.regs[0] := by
  unfold State.setReg
  split
  case isTrue => rfl
  case isFalse hi =>
    have hne : i ≠ 0#5 := h.elim (fun hwired h0 => hi (by simp [State.hardwired, hwired, h0])) id
    have hnat : i.toNat ≠ 0 := fun h0 => hne (BitVec.eq_of_toNat_eq h0)
    exact Vector.getElem_set_ne i.isLt _ hnat

theorem Executes.regs_zero {i : Instr} {s t : State} (h : Executes i s t)
    (hzero : s.x0Hardwired = true ∨ destReg i ≠ some 0#5) : t.regs[0] = s.regs[0] := by
  have hset {rd : RegNum} (v : Word) (hrd : destReg i = some rd) : (s.setReg rd v).regs[0] = s.regs[0] :=
    s.setReg_regs_zero v (hzero.imp_right fun hne h0 => hne (h0 ▸ hrd))
  cases h with
  | finish rd v hrd => exact hset v hrd
  | jalr rd n hrd => exact hset s.nextPc hrd
  | jal rd imm hrd => exact hset s.nextPc hrd
  | memFault | regFault | store | taken | passed => rfl

/-! ## The invariant -/

theorem Executes.mem_wf {i : Instr} {s t : State} (h : Executes i s t) (hm : Memory.wf s.mem) : Memory.wf t.mem := by
  cases h with
  | store a v hslot ha => exact Memory.wf_write hm ha v
  | finish | jalr | jal => simpa using hm
  | memFault | regFault | taken | passed => exact hm

theorem Executes.inv {i : Instr} {s t : State} (h : Executes i s t) (hs : s.Inv) : t.Inv := by
  obtain ⟨hprogram, hx0⟩ := h.sameParams
  exact
    { mem := h.mem_wf hs.mem
      zero := fun hwired => by
        rw [hx0] at hwired
        rw [h.regs_zero (.inl hwired), hs.zero hwired]
      len := hprogram ▸ hs.len }

/-- Settles O23: a step runs one instruction, whose store goes to an existing slot, whose register write is discarded
where it names the hardwired register 0, and which never touches the program. -/
theorem invariantKeptByEveryStep : Obligations.InvariantKeptByEveryStep := by
  intro s t hs h
  obtain ⟨x, i, -, -, hexec⟩ := executes_of_step h
  exact hexec.inv hs

/-! ## Registers, latch and pc -/

theorem State.reg_setReg_of_ne (s : State) {i j : RegNum} (v : Word) (h : i ≠ j) : (s.setReg i v).reg j = s.reg j := by
  rw [State.reg_setReg, if_neg (fun hj => h hj.1.symm)]

/-- Settles O17: each case that writes a register writes the one the instruction names. -/
theorem onlyDestinationRegisterChanges : Obligations.OnlyDestinationRegisterChanges := by
  intro i s t h j hj
  have hset {rd : RegNum} (v : Word) (hrd : destReg i = some rd) : (s.setReg rd v).reg j = s.reg j :=
    s.reg_setReg_of_ne v fun h0 => hj (h0 ▸ hrd)
  cases executes_of_exec h with
  | finish rd v hrd => exact hset v hrd
  | jalr rd n hrd => exact hset s.nextPc hrd
  | jal rd imm hrd => exact hset s.nextPc hrd
  | memFault | regFault | store | taken | passed => rfl

/-- Settles O21: the two cases that write the latch are those whose address or number is out of range. -/
theorem latchUnchangedWithoutIndexFault : Obligations.LatchUnchangedWithoutIndexFault := by
  intro i s t h haddr hnum
  cases executes_of_exec h with
  | memFault ea hea hout => have := haddr ea hea; omega
  | regFault n hn hout => have := hnum n hn; omega
  | finish | jalr | jal => simp
  | store | taken | passed => rfl

/-- Settles O22: the two fault entries set the latch, and each of the other cases has the pc of its own rule. -/
theorem nextPcOfEveryInstruction : Obligations.NextPcOfEveryInstruction := by
  intro i s t h _ hclear
  cases executes_of_exec h with
  | memFault => cases hclear
  | regFault => cases hclear
  | finish rd v hrd hjump hjalr => simp [hjump, hjalr]
  | store a v hslot ha hjump hjalr => simp [hjump, hjalr]
  | jalr rd n hrd hn hin hjump => simp [hn, hin, hjump]
  | taken imm hjump hjalr => simp [hjump, hjalr]
  | passed imm hjump hjalr => simp [hjump, hjalr]
  | jal rd imm hrd hjump hjalr => simp [hjump, hjalr]

/-- The offset of a well-formed branch or Jal is below `2^21` (spec/30_encoding.md R65, R67). -/
theorem jumpOffset_lt {i : Instr} {imm : Word} (hwf : i.wf = true) (h : jumpOffset i = some imm) :
    imm.toNat < 2 ^ 21 := by
  cases i <;> simp only [jumpOffset, reduceCtorEq, Option.some.injEq] at h <;> subst h
  case beq | bne | blt | bge | bltu | bgeu =>
    all_goals
      simp only [Instr.wf, immBOk, decide_eq_true_eq] at hwf
      omega
  case jal =>
    simp only [Instr.wf, immJOk, decide_eq_true_eq] at hwf
    exact hwf.1

/-- The pc of a slot that exists is below four times the length of the program (R25). -/
theorem State.pc_lt_of_fetch {s : State} {x : Slot} (h : s.fetch = some x) : s.pc.toNat < 4 * s.program.length := by
  obtain ⟨hlt, -⟩ := List.getElem?_eq_some_iff.1 h
  unfold State.fetchIndex at hlt
  omega

/-- Settles O51: a pc that fetches is at most `2^31 - 5`, so no sum with 4 or with an offset below `2^21` reaches
`2^32`, and the sum with 4 stays below `2^31`. -/
theorem fetchedPcNeverWraps : Obligations.FetchedPcNeverWraps := by
  intro s x hlen hx
  have hpc := State.pc_lt_of_fetch hx
  have hadd (v : Word) (hv : v.toNat < 2 ^ 21) : (s.pc + v).toNat = s.pc.toNat + v.toNat :=
    BitVec.toNat_add_of_lt (by omega)
  have hnext : (s.pc + 4#32).toNat = s.pc.toNat + 4 := hadd 4#32 (by decide)
  refine ⟨by omega, hnext, ?_, fun i imm hwf hjump => hadd imm (jumpOffset_lt hwf hjump)⟩
  rw [BitVec.toInt_eq_toNat_of_lt (by omega)]
  omega

end Sys2Proof.Machine
end

section
/-! The values of the constructed machine, and the two snapshots (spec/10_state.md R33, R34). -/

namespace Sys2Proof.Machine

theorem State.initial_inv (x0 : Bool) {p : List Slot} (h : p.length < Config.progLenBound) :
    (State.initial x0 p).Inv where
  mem := Memory.wf_nil
  zero := fun _ => by simp [State.initial]
  len := h

theorem State.initial_reg (x0 : Bool) (p : List Slot) (j : RegNum) : (State.initial x0 p).reg j = 0#32 := by
  simp [State.reg, State.initial]

theorem construct_of_lt (x0 : Bool) {p : List Slot} (h : p.length < Config.progLenBound) :
    construct x0 p = some (State.initial x0 p) := if_pos h

theorem construct_of_le (x0 : Bool) {p : List Slot} (h : Config.progLenBound ≤ p.length) : construct x0 p = none :=
  if_neg (Nat.not_lt.2 h)

/-- Settles O24: below the bound the constructed machine is `State.initial`, whose every field has its reset value. -/
theorem constructGivesResetValues : Obligations.ConstructGivesResetValues :=
  ⟨fun x0 p h => ⟨_, construct_of_lt x0 h, State.initial_inv x0 h, State.initial_reg x0 p, fun _ => rfl, rfl, rfl, rfl,
    rfl⟩, fun x0 _ h => construct_of_le x0 h, construct_of_lt true (by decide)⟩

theorem State.registers_getElem (s : State) {k : Nat} (hk : k < 32) : s.registers[k] = s.reg (BitVec.ofNat 5 k) := by
  have hfin : BitVec.ofFin (⟨k, hk⟩ : Fin 32) = BitVec.ofNat 5 k := BitVec.eq_of_toNat_eq (Nat.mod_eq_of_lt hk).symm
  simp [State.registers, hfin]

theorem State.memory_getElem (s : State) {a : Nat} (ha : a < 2048) : s.memory[a] = Memory.read s.mem a := by
  simp [State.memory]

theorem State.reg_zero_of_hardwired {s : State} (h : s.x0Hardwired = true) : s.reg 0#5 = 0#32 :=
  if_pos (by simp [State.hardwired, h])

/-- Settles O27: a snapshot lists what the reads give, and a step that fails keeps the state but for the latch, which
neither snapshot shows. -/
theorem snapshotsShowTheState : Obligations.SnapshotsShowTheState := by
  intro s
  refine ⟨fun _ hk => s.registers_getElem hk, fun h => ?_, fun _ ha => s.memory_getElem ha, fun h => ?_⟩
  · rw [s.registers_getElem, State.reg_zero_of_hardwired h]
  · rcases hs : hostStep s with ⟨t, r⟩
    rw [hs] at h
    rcases hostStep_not_success hs h with rfl | ⟨f, -, rfl, -⟩ <;> exact ⟨rfl, rfl⟩

end Sys2Proof.Machine
end

section
/-! The two settings of `X0_HARDWIRED` on a program that names register 0 nowhere as destination. While register 0 holds
zero, a read of it gives zero under both settings and no write tells them apart, so changing the setting commutes with an
instruction, a step and a run (spec/10_state.md R21). -/

namespace Sys2Proof.Machine

/-- The state under the setting `b` of `X0_HARDWIRED` (R21). -/
def State.withX0 (s : State) (b : Bool) : State := { s with x0Hardwired := b }

/-- A result with its next state, if it has one, under a setting. -/
def resultWithX0 (b : Bool) : Result → Result
  | .next t => .next (t.withX0 b)
  | .fault r => .fault r
  | .refused r => .refused r

/-- The program names register 0 nowhere as destination. -/
def NeverNamesX0 (p : List Slot) : Prop := ∀ x ∈ p, ∀ i, x.decode = .ok i → destReg i ≠ some 0#5

section
variable {s : State} (b : Bool)

@[simp] theorem State.withX0_pc : (s.withX0 b).pc = s.pc := rfl
@[simp] theorem State.withX0_mem : (s.withX0 b).mem = s.mem := rfl
@[simp] theorem State.withX0_fault : (s.withX0 b).fault = s.fault := rfl
@[simp] theorem State.withX0_fetch : (s.withX0 b).fetch = s.fetch := rfl

/-! ## One instruction -/

theorem State.setReg_withX0 {rd : RegNum} (hrd : rd ≠ 0#5) (v : Word) :
    (s.withX0 b).setReg rd v = (s.setReg rd v).withX0 b := by
  simp [State.setReg, State.hardwired, hrd, State.withX0]

theorem State.finish_withX0 {rd : RegNum} (hrd : rd ≠ 0#5) (v : Word) :
    (s.withX0 b).finish rd v = resultWithX0 b (s.finish rd v) := by
  rw [State.finish_eq, State.setReg_withX0 b hrd]
  rfl

theorem State.link_withX0 {rd : RegNum} (hrd : rd ≠ 0#5) (target : Word) :
    (s.withX0 b).link rd target = resultWithX0 b (s.link rd target) := by
  rw [State.link, State.setReg_withX0 b hrd]
  rfl

variable (hzero : s.regs[0] = 0#32)
include hzero

/-- While register 0 holds zero, hardwiring it changes no read. -/
theorem State.reg_eq_getElem (i : RegNum) : s.reg i = s.regs[i.toNat]'i.isLt := by
  unfold State.reg
  split
  case isFalse => rfl
  case isTrue hi =>
    obtain ⟨-, rfl⟩ : s.x0Hardwired = true ∧ i = 0#5 := by simpa [State.hardwired] using hi
    exact hzero.symm

theorem State.reg_withX0 (i : RegNum) : (s.withX0 b).reg i = s.reg i :=
  (State.reg_eq_getElem (s := s.withX0 b) hzero i).trans (State.reg_eq_getElem hzero i).symm

theorem State.ea_withX0 (rs1 : RegNum) (imm : Word) : (s.withX0 b).ea rs1 imm = s.ea rs1 imm := by
  rw [State.ea, State.reg_withX0 b hzero, State.ea]

theorem State.load_withX0 (n : Width) (extend : Word → Word) {rd : RegNum} (hrd : rd ≠ 0#5) (rs1 : RegNum)
    (imm : Word) : (s.withX0 b).load n extend rd rs1 imm = resultWithX0 b (s.load n extend rd rs1 imm) := by
  have hread : (s.withX0 b).memRead (s.ea rs1 imm) n = s.memRead (s.ea rs1 imm) n := rfl
  rw [State.load, State.ea_withX0 b hzero, hread, State.load]
  cases s.memRead (s.ea rs1 imm) n with
  | some v => exact State.finish_withX0 b hrd _
  | none => rfl

theorem State.store_withX0 (n : Width) (rs1 rs2 : RegNum) (imm : Word) :
    (s.withX0 b).store n rs1 rs2 imm = resultWithX0 b (s.store n rs1 rs2 imm) := by
  simp only [State.store, State.memWrite, State.ea_withX0 b hzero, State.reg_withX0 b hzero]
  cases slotOf (s.ea rs1 imm) <;> rfl

theorem State.branch_withX0 (holds : Word → Word → Bool) (rs1 rs2 : RegNum) (imm : Word) :
    (s.withX0 b).branch holds rs1 rs2 imm = resultWithX0 b (s.branch holds rs1 rs2 imm) := by
  simp only [State.branch, State.reg_withX0 b hzero]
  split <;> rfl

theorem execJalr_withX0 {rd : RegNum} (hrd : rd ≠ 0#5) (rs1 : RegNum) (imm : Word) :
    execJalr rd rs1 imm (s.withX0 b) = resultWithX0 b (execJalr rd rs1 imm s) := by
  simp only [execJalr, State.reg_withX0 b hzero]
  split
  · rfl
  · exact State.link_withX0 b hrd _

/-- An instruction whose destination is not register 0 does the same under both settings. -/
theorem exec_withX0 {i : Instr} (hd : destReg i ≠ some 0#5) : exec i (s.withX0 b) = resultWithX0 b (exec i s) := by
  have hrd {rd : RegNum} (h : destReg i = some rd) : rd ≠ 0#5 := fun h0 => hd (h0 ▸ h)
  have hreg := State.reg_withX0 b hzero
  cases i
  case add | sub | xor | or | and | sll | srl | sra | slt | sltu =>
    all_goals
      simp only [exec, execAdd, execSub, execXor, execOr, execAnd, execSll, execSrl, execSra, execSlt, execSltu,
        State.aluRegister, hreg]
      exact State.finish_withX0 b (hrd rfl) _
  case addi | xori | ori | andi | slli | srli | srai | slti | sltiu =>
    all_goals
      simp only [exec, execAddi, execXori, execOri, execAndi, execSlli, execSrli, execSrai, execSlti, execSltiu,
        State.aluImmediate, hreg]
      exact State.finish_withX0 b (hrd rfl) _
  case lui | auipc => all_goals exact State.finish_withX0 b (hrd rfl) _
  case lb | lh | lw | lbu | lhu => all_goals exact State.load_withX0 b hzero _ _ (hrd rfl) _ _
  case jalr => exact execJalr_withX0 b hzero (hrd rfl) _ _
  case sb | sh | sw => all_goals exact State.store_withX0 b hzero _ _ _ _
  case beq | bne | blt | bge | bltu | bgeu =>
    all_goals
      simp only [exec, execBeq, execBne, execBlt, execBge, execBltu, execBgeu]
      exact State.branch_withX0 b hzero _ _ _ _
  case jal => exact State.link_withX0 b (hrd rfl) _

/-! ## One step and a run -/

theorem step_withX0 (hp : NeverNamesX0 s.program) : step (s.withX0 b) = resultWithX0 b (step s) := by
  unfold step
  rw [State.withX0_fault, State.withX0_fetch]
  cases s.fault with
  | some f => rfl
  | none =>
    cases hx : s.fetch with
    | none => rfl
    | some x =>
      cases hi : x.decode with
      | error e => simp only [hi]; rfl
      | ok i =>
        simp only [hi]
        exact exec_withX0 b hzero (hp x (List.mem_of_getElem? hx) i hi)

theorem hostStep_withX0 (hp : NeverNamesX0 s.program) :
    hostStep (s.withX0 b) = ((hostStep s).1.withX0 b, (hostStep s).2) := by
  unfold hostStep
  rw [step_withX0 b hzero hp]
  cases step s with
  | next t =>
    simp only [resultWithX0, State.withX0_fault]
    cases t.fault <;> rfl
  | fault r => rfl
  | refused r => rfl

/-- Both premises hold again after a step that succeeds. -/
theorem hostStep_keeps_zero_and_neverNamesX0 (hp : NeverNamesX0 s.program) {t : State}
    (h : hostStep s = (t, .success)) :
    t.regs[0] = 0#32 ∧ NeverNamesX0 t.program := by
  obtain ⟨x, i, hx, hi, hexec⟩ := executes_of_hostStep h
  have hd : destReg i ≠ some 0#5 := hp x (List.mem_of_getElem? hx) i hi
  exact ⟨(hexec.regs_zero (.inr hd)).trans hzero, hexec.sameParams.1 ▸ hp⟩

end

theorem hostRun_withX0 (b : Bool) (fuel : Nat) {s : State} (hzero : s.regs[0] = 0#32) (hp : NeverNamesX0 s.program) :
    hostRun fuel (s.withX0 b) = ((hostRun fuel s).1.withX0 b, (hostRun fuel s).2) := by
  induction fuel generalizing s with
  | zero => rfl
  | succ fuel ih =>
    simp only [hostRun, hostStep_withX0 b hzero hp]
    rcases hs : hostStep s with ⟨t, r⟩
    cases r with
    | success =>
      obtain ⟨hzero', hp'⟩ := hostStep_keeps_zero_and_neverNamesX0 hzero hp hs
      exact ih hzero' hp'
    | failed f => rfl
    | unimplementedOperation => rfl

/-- Settles O53: the runs under both settings are the run of the given state with its final setting changed. -/
theorem settingsAgreeWhenX0IsNeverWritten : Obligations.SettingsAgreeWhenX0IsNeverWritten := by
  intro fuel s b c hzero hp
  have hrun (d : Bool) : hostRun fuel { s with x0Hardwired := d } =
      ((hostRun fuel s).1.withX0 d, (hostRun fuel s).2) := hostRun_withX0 d fuel hzero hp
  rw [hrun b, hrun c]
  exact ⟨rfl, rfl⟩

end Sys2Proof.Machine
end

section
/-! What an instruction, a step and a run leave of the data memory, the program store and the setting of register 0
(spec/20_memory.md R43, R50, R52). -/

namespace Sys2Proof.Machine

/-! ## Instructions and steps -/

/-- Settles O18: the one case that writes memory writes the slot the store names. -/
theorem onlyStoredSlotChanges : Obligations.OnlyStoredSlotChanges := by
  intro i s t h a ha
  cases executes_of_exec h with
  | store b v hslot =>
    have hne : a ≠ b := fun hab => ha (hab ▸ hslot)
    exact Memory.read_write_other s.mem hne v
  | finish | jalr | jal => simp
  | memFault | regFault | taken | passed => rfl

/-- Settles O19: a step that answers a next state has run an instruction, and none writes the parameters. -/
theorem parametersNeverChange : Obligations.ParametersNeverChange := by
  intro s t h
  obtain ⟨x, i, -, -, hexec⟩ := executes_of_step h
  exact hexec.sameParams

/-! ## Runs -/

theorem SameParams.refl (s : State) : SameParams s s := ⟨rfl, rfl⟩

theorem SameParams.trans {s t u : State} (hst : SameParams s t) (htu : SameParams t u) : SameParams s u :=
  ⟨htu.1.trans hst.1, htu.2.trans hst.2⟩

/-- A run that goes on for one more step begins with a step that answers a next state. -/
theorem core_run_succ {n : Nat} {s t : State} (h : core.run (n + 1) s = .next t) :
    ∃ u, step s = .next u ∧ core.run n u = .next t := by
  rcases step_cases s with ⟨f, -, hs⟩ | ⟨-, -, hs⟩ | ⟨x, e, -, -, -, hs⟩ | ⟨x, i, u, -, -, -, -, hs⟩
  case inr.inr.inr => exact ⟨u, hs, core_run_next n s u hs ▸ h⟩
  all_goals
    rw [core_run_fault n s _ hs] at h
    cases h

/-- What every step keeps, every run keeps. -/
theorem core_run_keeps {P : State → Prop} (hstep : ∀ s t, P s → step s = .next t → P t) (n : Nat) {s t : State}
    (hs : P s) (h : core.run n s = .next t) : P t := by
  induction n generalizing s with
  | zero => cases h; exact hs
  | succ n ih =>
    obtain ⟨u, hsu, hut⟩ := core_run_succ h
    exact ih (hstep s u hs hsu) hut

/-- Settles O54: every step keeps the parameters and the invariant, and so does a run. -/
theorem runsKeepProgramAndInvariant : Obligations.RunsKeepProgramAndInvariant := by
  intro n s t hs h
  refine core_run_keeps (P := fun u => SameParams s u ∧ u.Inv) ?_ n ⟨SameParams.refl s, hs⟩ h
  rintro u v ⟨hparams, hinv⟩ huv
  exact ⟨hparams.trans (parametersNeverChange u v huv), invariantKeptByEveryStep u v hinv huv⟩

end Sys2Proof.Machine
end

section
/-! No instruction reads the program store: executing an instruction commutes with replacing the program
(spec/20_memory.md R40, R52). -/

namespace Sys2Proof.Machine

/-- The state over another program. -/
def State.withProgram (s : State) (p : List Slot) : State := { s with program := p }

/-- A result with its next state, if it has one, over another program. -/
def resultWithProgram (p : List Slot) : Result → Result
  | .next t => .next (t.withProgram p)
  | .fault r => .fault r
  | .refused r => .refused r

section
variable (s : State) (p : List Slot)

theorem State.setReg_withProgram (rd : RegNum) (v : Word) :
    (s.withProgram p).setReg rd v = (s.setReg rd v).withProgram p := by
  have hwired : (s.withProgram p).hardwired rd = s.hardwired rd := rfl
  unfold State.setReg
  rw [hwired]
  split <;> rfl

theorem State.finish_withProgram (rd : RegNum) (v : Word) :
    (s.withProgram p).finish rd v = resultWithProgram p (s.finish rd v) := by
  rw [State.finish_eq, State.setReg_withProgram]
  rfl

theorem State.link_withProgram (rd : RegNum) (target : Word) :
    (s.withProgram p).link rd target = resultWithProgram p (s.link rd target) := by
  rw [State.link, State.setReg_withProgram]
  rfl

theorem State.load_withProgram (n : Width) (extend : Word → Word) (rd rs1 : RegNum) (imm : Word) :
    (s.withProgram p).load n extend rd rs1 imm = resultWithProgram p (s.load n extend rd rs1 imm) := by
  have hread : (s.withProgram p).memRead ((s.withProgram p).ea rs1 imm) n = s.memRead (s.ea rs1 imm) n := rfl
  rw [State.load, hread, State.load]
  cases s.memRead (s.ea rs1 imm) n with
  | some v => exact s.finish_withProgram p rd (extend v)
  | none => rfl

theorem State.store_withProgram (n : Width) (rs1 rs2 : RegNum) (imm : Word) :
    (s.withProgram p).store n rs1 rs2 imm = resultWithProgram p (s.store n rs1 rs2 imm) := by
  have hea : (s.withProgram p).ea rs1 imm = s.ea rs1 imm := rfl
  simp only [State.store, State.memWrite, hea]
  cases slotOf (s.ea rs1 imm) <;> rfl

theorem State.branch_withProgram (holds : Word → Word → Bool) (rs1 rs2 : RegNum) (imm : Word) :
    (s.withProgram p).branch holds rs1 rs2 imm = resultWithProgram p (s.branch holds rs1 rs2 imm) := by
  have hreg (j : RegNum) : (s.withProgram p).reg j = s.reg j := rfl
  simp only [State.branch, hreg]
  split <;> rfl

theorem execJalr_withProgram (rd rs1 : RegNum) (imm : Word) :
    execJalr rd rs1 imm (s.withProgram p) = resultWithProgram p (execJalr rd rs1 imm s) := by
  unfold execJalr
  split
  · rfl
  · exact s.link_withProgram p rd _

theorem exec_withProgram (i : Instr) : exec i (s.withProgram p) = resultWithProgram p (exec i s) := by
  cases i
  case add | sub | xor | or | and | sll | srl | sra | slt | sltu | addi | xori | ori | andi | slli | srli | srai |
      slti | sltiu | lui | auipc =>
    all_goals exact s.finish_withProgram p _ _
  case lb | lh | lw | lbu | lhu => all_goals exact s.load_withProgram p _ _ _ _ _
  case jalr => exact execJalr_withProgram s p _ _ _
  case sb | sh | sw => all_goals exact s.store_withProgram p _ _ _ _
  case beq | bne | blt | bge | bltu | bgeu =>
    all_goals
      simp only [exec, execBeq, execBne, execBlt, execBge, execBltu, execBgeu]
      exact s.branch_withProgram p _ _ _ _
  case jal => exact s.link_withProgram p _ _

end

/-- Settles O52: each shared operation commutes with replacing the program, so every instruction does. -/
theorem executionCannotReadTheProgram : Obligations.ExecutionCannotReadTheProgram := by
  intro i s t p h
  calc exec i (s.withProgram p) = resultWithProgram p (exec i s) := exec_withProgram s p i
    _ = .next (t.withProgram p) := by rw [h]; rfl

end Sys2Proof.Machine
end

section
/-! A load of a slot right after a store to it (spec/20_memory.md R43, R44, R50; spec/44_load.md R191 to R195;
spec/46_store.md R211 to R213). -/

namespace Sys2Proof.Machine

/-! ## The loads -/

theorem State.finish_writesReg (s : State) (rd : RegNum) (v : Word) :
    WritesReg s (s.setReg rd v).advance rd v (s.pc + 4#32) :=
  ⟨fun j => s.reg_setReg rd v j, by simp, by simp, by simp, by simp [SameParams]⟩

/-- A load of a slot that exists writes the slot's extended low bits to `rd` (R190). -/
theorem State.load_writesReg {s : State} {rs1 : RegNum} {imm : Word} {a : Nat} (ha : slotOf (s.ea rs1 imm) = some a)
    (n : Width) (extend : Word → Word) (rd : RegNum) :
    ∃ u, s.load n extend rd rs1 imm = .next u ∧
      WritesReg s u rd (extend (n.low (Memory.read s.mem a))) (s.pc + 4#32) := by
  rcases s.load_cases n extend rd rs1 imm with ⟨b, hb, h⟩ | ⟨hb, -⟩ <;> rw [ha] at hb <;> cases hb
  exact ⟨_, h, s.finish_writesReg rd _⟩

theorem Width.toNat_low (n : Width) (w : Word) : (n.low w).toNat = w.toNat % 2 ^ n.bits := by
  have hbits : n.bits ≤ 32 := by cases n <;> decide
  have hlt : w.toNat % 2 ^ n.bits < 2 ^ 32 :=
    (Nat.mod_lt _ (Nat.two_pow_pos _)).trans_le (Nat.pow_le_pow_right (by decide) hbits)
  rw [Width.low, BitVec.toNat_setWidth, BitVec.toNat_setWidth, Nat.mod_eq_of_lt hlt]

theorem Width.low_full (w : Word) : Width.low .full w = w := by
  simp [Width.low, Width.bits]

/-- The sign-extended low bits of a word are its value in the signed range of the width. -/
theorem toInt_sext_low (n : Width) (w : Word) : (sext n (n.low w)).toInt = Int.bmod (w.toNat : Int) (2 ^ n.bits) := by
  have hbits : n.bits ≤ 32 := by cases n <;> decide
  have hlow : (n.low w).setWidth n.bits = w.setWidth n.bits := by
    apply BitVec.eq_of_toNat_eq
    rw [BitVec.toNat_setWidth, Width.toNat_low, Nat.mod_mod, BitVec.toNat_setWidth]
  rw [sext, hlow, BitVec.toInt_signExtend_of_le hbits, BitVec.toInt_setWidth]

theorem toNat_zext_low (n : Width) (w : Word) : (zext n (n.low w)).toNat = w.toNat % 2 ^ n.bits := by
  rw [zext, Width.toNat_low, Width.toNat_low, Nat.mod_mod]

/-- The five loads of a slot that exists (R191 to R195). -/
theorem loadsSee_of_slotOf {t : State} {rb : RegNum} {off : Word} {a : Nat} (ha : slotOf (t.ea rb off) = some a)
    (rd : RegNum) : LoadsSee t rd rb off (Memory.read t.mem a) := by
  have hload (n : Width) (extend : Word → Word) := State.load_writesReg ha n extend rd
  refine ⟨?_, ?_, ?_, ?_, ?_⟩
  · obtain ⟨u, hexec, hw⟩ := hload .byte (sext .byte)
    exact ⟨u, _, hexec, toInt_sext_low .byte _, hw⟩
  · obtain ⟨u, hexec, hw⟩ := hload .half (sext .half)
    exact ⟨u, _, hexec, toInt_sext_low .half _, hw⟩
  · obtain ⟨u, hexec, hw⟩ := hload .full id
    rw [Width.low_full] at hw
    exact ⟨u, hexec, hw⟩
  · obtain ⟨u, hexec, hw⟩ := hload .byte (zext .byte)
    exact ⟨u, _, hexec, toNat_zext_low .byte _, hw⟩
  · obtain ⟨u, hexec, hw⟩ := hload .half (zext .half)
    exact ⟨u, _, hexec, toNat_zext_low .half _, hw⟩

/-! ## The stores -/

/-- A store to a slot that exists merges the register's low bits into the slot and advances (R210). -/
theorem State.store_writesSlot {s : State} (hm : Memory.wf s.mem) {rs1 : RegNum} {imm : Word} {a : Nat}
    (ha : slotOf (s.ea rs1 imm) = some a) (n : Width) (rs2 : RegNum) :
    ∃ t, s.store n rs1 rs2 imm = .next t ∧ WritesSlot s t a (n.merge (Memory.read s.mem a) (s.reg rs2)) := by
  rcases s.store_cases n rs1 rs2 imm with ⟨b, hb, h⟩ | ⟨hb, -⟩ <;> rw [ha] at hb <;> cases hb
  exact ⟨_, h, Memory.read_write_same hm a _, fun b hb => Memory.read_write_other s.mem hb _, fun _ => rfl, rfl, rfl,
    SameParams.refl s⟩

/-- A merge written with masks: `high` selects the kept bits of the slot, `low` the stored bits of the value. -/
theorem Width.merge_eq_masks (n : Width) {high low : Word}
    (hhigh : ∀ k < 32, high.getLsbD k = !decide (k < n.bits)) (hlow : ∀ k < 32, low.getLsbD k = decide (k < n.bits))
    (old v : Word) : n.merge old v = (old &&& high) ||| (v &&& low) := by
  apply BitVec.eq_of_getLsbD_eq
  intro k hk
  rw [n.getLsbD_merge old v k hk, BitVec.getLsbD_or, BitVec.getLsbD_and, BitVec.getLsbD_and, hhigh k hk, hlow k hk]
  by_cases hn : k < n.bits <;> simp [hn]

theorem Width.merge_byte (old v : Word) : Width.merge .byte old v = (old &&& 0xFFFFFF00#32) ||| (v &&& 0x000000FF#32) :=
  Width.merge_eq_masks .byte (by decide) (by decide) old v

theorem Width.merge_half (old v : Word) : Width.merge .half old v = (old &&& 0xFFFF0000#32) ||| (v &&& 0x0000FFFF#32) :=
  Width.merge_eq_masks .half (by decide) (by decide) old v

/-! ## A load after a store -/

/-- Settles O43: the store leaves the merged word in the slot, and each load takes its bits from that slot. -/
theorem loadsSeeTheLastStore : Obligations.LoadsSeeTheLastStore := by
  intro s t rs1 rs2 rd rb imm off a hm hstore hload
  have hafter (n : Width) (h : s.store n rs1 rs2 imm = .next t) :
      LoadsSee t rd rb off (n.merge (Memory.read s.mem a) (s.reg rs2)) := by
    obtain ⟨u, hu, hread, -⟩ := State.store_writesSlot hm hstore n rs2
    cases h.symm.trans hu
    exact hread ▸ loadsSee_of_slotOf hload rd
  refine ⟨fun h => hafter .full h, fun h => ?_, fun h => ?_⟩
  · rw [← Width.merge_half]
    exact hafter .half h
  · rw [← Width.merge_byte]
    exact hafter .byte h

end Sys2Proof.Machine
end

section
/-! The word decoder: the sub-group and the row a decodable word is read in, said once as a case distinction, and from
it the two directions of the round trip, the ranges of the immediates and the rows of the opcode table
(spec/30_encoding.md R60 to R77, R87). -/

namespace Sys2Proof

/-- The opcode that selects a sub-group (R70). -/
def Group.opcode : Group → BitVec 7
  | .register => 0b0110011#7
  | .immediateAlu => 0b0010011#7
  | .load => 0b0000011#7
  | .jalr => 0b1100111#7
  | .store => 0b0100011#7
  | .branch => 0b1100011#7
  | .lui => 0b0110111#7
  | .auipc => 0b0010111#7
  | .jal => 0b1101111#7

theorem groupOf_opcode (g : Group) : groupOf g.opcode = some g := by
  cases g <;> rfl

theorem groupOf_eq_some_iff {op : BitVec 7} {g : Group} : groupOf op = some g ↔ op = g.opcode := by
  refine ⟨fun h => ?_, fun h => h ▸ groupOf_opcode g⟩
  unfold groupOf at h
  split at h <;> cases h <;> rfl

/-- The instruction `i` is what `w` holds in the sub-group its opcode selects: `decode` read off its success. -/
inductive Decodes (w : Word) : Instr → Prop
  | register {mk} (hop : opcodeField w = Group.opcode .register)
      (hmk : registerOp (funct3Field w) (funct7Field w) = some mk) :
      Decodes w (mk (rdField w) (rs1Field w) (rs2Field w))
  | immediateAlu {mk} (hop : opcodeField w = Group.opcode .immediateAlu)
      (hmk : immediateOp (funct3Field w) (funct7Field w) = some mk) : Decodes w (mk (rdField w) (rs1Field w) (immI w))
  | load {mk} (hop : opcodeField w = Group.opcode .load) (hmk : loadOp (funct3Field w) = some mk) :
      Decodes w (mk (rdField w) (rs1Field w) (immI w))
  | jalr {mk} (hop : opcodeField w = Group.opcode .jalr) (hmk : jalrOp (funct3Field w) = some mk) :
      Decodes w (mk (rdField w) (rs1Field w) (immI w))
  | store {mk} (hop : opcodeField w = Group.opcode .store) (hmk : storeOp (funct3Field w) = some mk) :
      Decodes w (mk (rs1Field w) (rs2Field w) (immS w))
  | branch {mk} (hop : opcodeField w = Group.opcode .branch) (hmk : branchOp (funct3Field w) = some mk) :
      Decodes w (mk (rs1Field w) (rs2Field w) (immB w))
  | lui (hop : opcodeField w = Group.opcode .lui) : Decodes w (.lui (rdField w) (immU w))
  | auipc (hop : opcodeField w = Group.opcode .auipc) : Decodes w (.auipc (rdField w) (immU w))
  | jal (hop : opcodeField w = Group.opcode .jal) : Decodes w (.jal (rdField w) (immJ w))

theorem decode_of_opcode {w : Word} {g : Group} (hop : opcodeField w = g.opcode) : decode w = decodeGroup g w := by
  simp only [decode, hop, groupOf_opcode]

theorem decode_eq_ok_iff {w : Word} {i : Instr} : decode w = .ok i ↔ Decodes w i := by
  constructor
  · intro h
    cases hg : groupOf (opcodeField w) with
    | none => simp only [decode, hg, reduceCtorEq] at h
    | some g =>
      have hop := groupOf_eq_some_iff.1 hg
      rw [decode_of_opcode hop] at h
      cases g <;> simp only [decodeGroup] at h
      case lui => cases h; exact .lui hop
      case auipc => cases h; exact .auipc hop
      case jal => cases h; exact .jal hop
      case register => split at h <;> cases h; exact .register hop ‹_›
      case immediateAlu => split at h <;> cases h; exact .immediateAlu hop ‹_›
      case load => split at h <;> cases h; exact .load hop ‹_›
      case jalr => split at h <;> cases h; exact .jalr hop ‹_›
      case store => split at h <;> cases h; exact .store hop ‹_›
      case branch => split at h <;> cases h; exact .branch hop ‹_›
  · intro h
    cases h with
    | register hop hmk | immediateAlu hop hmk | load hop hmk | jalr hop hmk | store hop hmk | branch hop hmk =>
      rw [decode_of_opcode hop]
      simp only [decodeGroup, hmk]
    | lui hop | auipc hop | jal hop => exact decode_of_opcode hop

/-! ## A word is the layout of its own fields -/

theorem encR_fields (w : Word) :
    encR (funct7Field w) (rs2Field w) (rs1Field w) (funct3Field w) (rdField w) (opcodeField w) = w := by
  unfold encR funct7Field rs2Field rs1Field funct3Field rdField opcodeField
  apply BitVec.eq_of_getLsbD_eq
  intro k hk
  simp only [BitVec.getLsbD_extractLsb', BitVec.getLsbD_append]
  interval_cases k <;> simp

theorem encI_fields (w : Word) : encI (immI w) (rs1Field w) (funct3Field w) (rdField w) (opcodeField w) = w := by
  unfold encI immI rs1Field funct3Field rdField opcodeField
  apply BitVec.eq_of_getLsbD_eq
  intro k hk
  simp only [BitVec.getLsbD_extractLsb', BitVec.getLsbD_append, BitVec.getLsbD_setWidth]
  interval_cases k <;> simp

theorem encS_fields (w : Word) : encS (immS w) (rs2Field w) (rs1Field w) (funct3Field w) (opcodeField w) = w := by
  unfold encS immS rs2Field rs1Field funct3Field opcodeField
  apply BitVec.eq_of_getLsbD_eq
  intro k hk
  simp only [BitVec.getLsbD_extractLsb', BitVec.getLsbD_append, BitVec.getLsbD_setWidth]
  interval_cases k <;> simp

theorem encB_fields (w : Word) : encB (immB w) (rs2Field w) (rs1Field w) (funct3Field w) (opcodeField w) = w := by
  unfold encB immB rs2Field rs1Field funct3Field opcodeField
  apply BitVec.eq_of_getLsbD_eq
  intro k hk
  simp only [BitVec.getLsbD_extractLsb', BitVec.getLsbD_append, BitVec.getLsbD_setWidth]
  interval_cases k <;> simp

theorem encU_fields (w : Word) : encU (immU w) (rdField w) (opcodeField w) = w := by
  unfold encU immU rdField opcodeField
  apply BitVec.eq_of_getLsbD_eq
  intro k hk
  simp only [BitVec.getLsbD_extractLsb', BitVec.getLsbD_append, BitVec.getLsbD_setWidth]
  interval_cases k <;> simp

theorem encJ_fields (w : Word) : encJ (immJ w) (rdField w) (opcodeField w) = w := by
  unfold encJ immJ rdField opcodeField
  apply BitVec.eq_of_getLsbD_eq
  intro k hk
  simp only [BitVec.getLsbD_extractLsb', BitVec.getLsbD_append, BitVec.getLsbD_setWidth]
  interval_cases k <;> simp

/-! ## Encoding a decoded instruction -/

section
variable {funct3 : BitVec 3} {funct7 : BitVec 7} {f : RegNum → RegNum → Word → Instr} (r₁ r₂ : RegNum) (imm : Word)

theorem encode_of_registerOp {f : RegNum → RegNum → RegNum → Instr} (h : registerOp funct3 funct7 = some f)
    (rd rs1 rs2 : RegNum) : encode (f rd rs1 rs2) = encR funct7 rs2 rs1 funct3 rd (Group.opcode .register) := by
  unfold registerOp at h
  split at h <;> cases h <;> rfl

theorem encode_of_immediateOp (h : immediateOp funct3 funct7 = some f) :
    encode (f r₁ r₂ imm) = encI imm r₂ funct3 r₁ (Group.opcode .immediateAlu) := by
  unfold immediateOp at h
  split at h
  case h_2 => split_ifs at h; cases h; rfl
  case h_6 => split_ifs at h <;> (cases h; rfl)
  case h_9 => cases h
  all_goals
    cases h
    rfl

theorem encode_of_loadOp (h : loadOp funct3 = some f) :
    encode (f r₁ r₂ imm) = encI imm r₂ funct3 r₁ (Group.opcode .load) := by
  unfold loadOp at h
  split at h <;> cases h <;> rfl

theorem encode_of_jalrOp (h : jalrOp funct3 = some f) :
    encode (f r₁ r₂ imm) = encI imm r₂ funct3 r₁ (Group.opcode .jalr) := by
  unfold jalrOp at h
  split at h <;> cases h; rfl

theorem encode_of_storeOp (h : storeOp funct3 = some f) :
    encode (f r₁ r₂ imm) = encS imm r₂ r₁ funct3 (Group.opcode .store) := by
  unfold storeOp at h
  split at h <;> cases h <;> rfl

theorem encode_of_branchOp (h : branchOp funct3 = some f) :
    encode (f r₁ r₂ imm) = encB imm r₂ r₁ funct3 (Group.opcode .branch) := by
  unfold branchOp at h
  split at h <;> cases h <;> rfl

end

theorem Decodes.encode_eq {w : Word} {i : Instr} (h : Decodes w i) : encode i = w := by
  cases h with
  | register hop hmk => rw [encode_of_registerOp hmk, ← hop, encR_fields]
  | immediateAlu hop hmk => rw [encode_of_immediateOp _ _ _ hmk, ← hop, encI_fields]
  | load hop hmk => rw [encode_of_loadOp _ _ _ hmk, ← hop, encI_fields]
  | jalr hop hmk => rw [encode_of_jalrOp _ _ _ hmk, ← hop, encI_fields]
  | store hop hmk => rw [encode_of_storeOp _ _ _ hmk, ← hop, encS_fields]
  | branch hop hmk => rw [encode_of_branchOp _ _ _ hmk, ← hop, encB_fields]
  | lui hop | auipc hop => exact (congrArg (encU (immU w) (rdField w)) hop.symm).trans (encU_fields w)
  | jal hop => exact (congrArg (encJ (immJ w) (rdField w)) hop.symm).trans (encJ_fields w)

/-- Settles O2: the row a word decodes in gives its opcode and funct fields back, and the operands and the immediate
give back every other bit. -/
theorem encodeDecodeRoundTrip : Obligations.EncodeDecodeRoundTrip :=
  fun _ _ h => (decode_eq_ok_iff.1 h).encode_eq

/-! ## Decoding an encoded instruction -/

section
variable (funct3 : BitVec 3) (rd rs1 rs2 : RegNum) (op : BitVec 7) (imm : Word)

theorem fields_encI : opcodeField (encI imm rs1 funct3 rd op) = op ∧ rdField (encI imm rs1 funct3 rd op) = rd ∧
    funct3Field (encI imm rs1 funct3 rd op) = funct3 ∧ rs1Field (encI imm rs1 funct3 rd op) = rs1 ∧
    funct7Field (encI imm rs1 funct3 rd op) = imm.extractLsb' 5 7 := by
  rw [encI_eq_encR, opcodeField_encR, rdField_encR, funct3Field_encR, rs1Field_encR, funct7Field_encR]
  exact ⟨rfl, rfl, rfl, rfl, rfl⟩

theorem fields_encS :
    opcodeField (encS imm rs2 rs1 funct3 op) = op ∧ funct3Field (encS imm rs2 rs1 funct3 op) = funct3 ∧
    rs1Field (encS imm rs2 rs1 funct3 op) = rs1 ∧ rs2Field (encS imm rs2 rs1 funct3 op) = rs2 := by
  rw [encS_eq_encR, opcodeField_encR, funct3Field_encR, rs1Field_encR, rs2Field_encR]
  exact ⟨rfl, rfl, rfl, rfl⟩

theorem fields_encB :
    opcodeField (encB imm rs2 rs1 funct3 op) = op ∧ funct3Field (encB imm rs2 rs1 funct3 op) = funct3 ∧
    rs1Field (encB imm rs2 rs1 funct3 op) = rs1 ∧ rs2Field (encB imm rs2 rs1 funct3 op) = rs2 := by
  rw [encB_eq_encR, opcodeField_encR, funct3Field_encR, rs1Field_encR, rs2Field_encR]
  exact ⟨rfl, rfl, rfl, rfl⟩

theorem fields_encU : opcodeField (encU imm rd op) = op ∧ rdField (encU imm rd op) = rd := by
  rw [encU_eq_encR, opcodeField_encR, rdField_encR]
  exact ⟨rfl, rfl⟩

theorem fields_encJ : opcodeField (encJ imm rd op) = op ∧ rdField (encJ imm rd op) = rd := by
  rw [encJ_eq_encR, opcodeField_encR, rdField_encR]
  exact ⟨rfl, rfl⟩

end

section
variable {funct3 : BitVec 3} {funct7 : BitVec 7} {f : RegNum → RegNum → Word → Instr} {imm : Word}
  (rd rs1 rs2 : RegNum)

theorem decodes_register {f : RegNum → RegNum → RegNum → Instr} (h : registerOp funct3 funct7 = some f) :
    Decodes (encR funct7 rs2 rs1 funct3 rd (Group.opcode .register)) (f rd rs1 rs2) := by
  have hread := Decodes.register (w := encR funct7 rs2 rs1 funct3 rd (Group.opcode .register)) (mk := f)
  rw [opcodeField_encR, rdField_encR, funct3Field_encR, rs1Field_encR, rs2Field_encR, funct7Field_encR] at hread
  exact hread rfl h

theorem decodes_immediateAlu (h : immediateOp funct3 (imm.extractLsb' 5 7) = some f) (himm : imm.toNat < 2 ^ 12) :
    Decodes (encI imm rs1 funct3 rd (Group.opcode .immediateAlu)) (f rd rs1 imm) := by
  obtain ⟨hop, hrd, hf3, hrs1, hf7⟩ := fields_encI funct3 rd rs1 (Group.opcode .immediateAlu) imm
  have hread := Decodes.immediateAlu hop (mk := f) (by rwa [hf3, hf7])
  rwa [hrd, hrs1, immI_encI _ _ _ _ _ himm] at hread

theorem decodes_load (h : loadOp funct3 = some f) (himm : imm.toNat < 2 ^ 12) :
    Decodes (encI imm rs1 funct3 rd (Group.opcode .load)) (f rd rs1 imm) := by
  obtain ⟨hop, hrd, hf3, hrs1, -⟩ := fields_encI funct3 rd rs1 (Group.opcode .load) imm
  have hread := Decodes.load hop (hf3.symm ▸ h)
  rwa [hrd, hrs1, immI_encI _ _ _ _ _ himm] at hread

theorem decodes_jalr (h : jalrOp funct3 = some f) (himm : imm.toNat < 2 ^ 12) :
    Decodes (encI imm rs1 funct3 rd (Group.opcode .jalr)) (f rd rs1 imm) := by
  obtain ⟨hop, hrd, hf3, hrs1, -⟩ := fields_encI funct3 rd rs1 (Group.opcode .jalr) imm
  have hread := Decodes.jalr hop (hf3.symm ▸ h)
  rwa [hrd, hrs1, immI_encI _ _ _ _ _ himm] at hread

theorem decodes_store (h : storeOp funct3 = some f) (himm : imm.toNat < 2 ^ 12) :
    Decodes (encS imm rs2 rs1 funct3 (Group.opcode .store)) (f rs1 rs2 imm) := by
  obtain ⟨hop, hf3, hrs1, hrs2⟩ := fields_encS funct3 rs1 rs2 (Group.opcode .store) imm
  have hread := Decodes.store hop (hf3.symm ▸ h)
  rwa [hrs1, hrs2, immS_encS _ _ _ _ _ himm] at hread

theorem decodes_branch (h : branchOp funct3 = some f) (himm : imm.toNat < 2 ^ 13 ∧ imm.toNat % 2 = 0) :
    Decodes (encB imm rs2 rs1 funct3 (Group.opcode .branch)) (f rs1 rs2 imm) := by
  obtain ⟨hop, hf3, hrs1, hrs2⟩ := fields_encB funct3 rs1 rs2 (Group.opcode .branch) imm
  have hread := Decodes.branch hop (hf3.symm ▸ h)
  rwa [hrs1, hrs2, immB_encB _ _ _ _ _ himm.1 himm.2] at hread

theorem decodes_lui (himm : imm.toNat < 2 ^ 20) : Decodes (encU imm rd (Group.opcode .lui)) (.lui rd imm) := by
  obtain ⟨hop, hrd⟩ := fields_encU rd (Group.opcode .lui) imm
  have hread := Decodes.lui hop
  rwa [hrd, immU_encU _ _ _ himm] at hread

theorem decodes_auipc (himm : imm.toNat < 2 ^ 20) : Decodes (encU imm rd (Group.opcode .auipc)) (.auipc rd imm) := by
  obtain ⟨hop, hrd⟩ := fields_encU rd (Group.opcode .auipc) imm
  have hread := Decodes.auipc hop
  rwa [hrd, immU_encU _ _ _ himm] at hread

theorem decodes_jal (himm : imm.toNat < 2 ^ 21 ∧ imm.toNat % 2 = 0) :
    Decodes (encJ imm rd (Group.opcode .jal)) (.jal rd imm) := by
  obtain ⟨hop, hrd⟩ := fields_encJ rd (Group.opcode .jal) imm
  have hread := Decodes.jal hop
  rwa [hrd, immJ_encJ _ _ _ himm.1 himm.2] at hread

end

theorem decodes_encode {i : Instr} (hwf : i.wf = true) : Decodes (encode i) i := by
  cases i
  case add | sub | xor | or | and | sll | srl | sra | slt | sltu => all_goals exact decodes_register _ _ _ rfl
  case addi | xori | ori | andi | slti | sltiu =>
    all_goals exact decodes_immediateAlu _ _ rfl (of_decide_eq_true hwf)
  case slli rd rs1 imm | srli rd rs1 imm =>
    all_goals
      have himm : imm.toNat < 32 := of_decide_eq_true hwf
      refine decodes_immediateAlu rd rs1 ?_ (by omega)
      rw [extract_shamt imm himm]
      rfl
  case srai rd rs1 imm =>
    have himm : 1024 ≤ imm.toNat ∧ imm.toNat ≤ 1055 := of_decide_eq_true hwf
    refine decodes_immediateAlu rd rs1 ?_ (by omega)
    rw [extract_srai imm himm]
    rfl
  case lb | lh | lw | lbu | lhu => all_goals exact decodes_load _ _ rfl (of_decide_eq_true hwf)
  case jalr => exact decodes_jalr _ _ rfl (of_decide_eq_true hwf)
  case sb | sh | sw => all_goals exact decodes_store _ _ rfl (of_decide_eq_true hwf)
  case beq | bne | blt | bge | bltu | bgeu => all_goals exact decodes_branch _ _ rfl (of_decide_eq_true hwf)
  case lui => exact decodes_lui _ (of_decide_eq_true hwf)
  case auipc => exact decodes_auipc _ (of_decide_eq_true hwf)
  case jal => exact decodes_jal _ (of_decide_eq_true hwf)

/-- Settles O1: the opcode and funct values of an encoded instruction select its own row, and each operand and each
immediate in range is read back. -/
theorem decodeEncodeRoundTrip : Obligations.DecodeEncodeRoundTrip :=
  fun _ hwf => decode_eq_ok_iff.2 (decodes_encode hwf)

/-! ## The ranges of decoded immediates -/

section
variable (w : Word)

theorem immI_lt : (immI w).toNat < 2 ^ 12 := by
  rw [immI, BitVec.toNat_setWidth_of_le (by decide)]
  exact BitVec.isLt _

theorem immS_lt : (immS w).toNat < 2 ^ 12 := by
  rw [immS, BitVec.toNat_setWidth_of_le (by decide)]
  exact BitVec.isLt _

theorem immU_lt : (immU w).toNat < 2 ^ 20 := by
  rw [immU, BitVec.toNat_setWidth_of_le (by decide)]
  exact BitVec.isLt _

/-- A bit pattern that ends in a zero bit is even. -/
theorem toNat_append_zero_even {n : Nat} (v : BitVec n) : (v ++ 0#1).toNat % 2 = 0 := by
  simp [BitVec.toNat_append, Nat.shiftLeft_eq]

theorem immB_range : (immB w).toNat < 2 ^ 13 ∧ (immB w).toNat % 2 = 0 := by
  rw [immB, BitVec.toNat_setWidth_of_le (by decide)]
  exact ⟨BitVec.isLt _, toNat_append_zero_even _⟩

theorem immJ_range : (immJ w).toNat < 2 ^ 21 ∧ (immJ w).toNat % 2 = 0 := by
  rw [immJ, BitVec.toNat_setWidth_of_le (by decide)]
  exact ⟨BitVec.isLt _, toNat_append_zero_even _⟩

/-- The top seven bits of the I immediate are `funct7` (R61, R63). -/
theorem immI_div : (immI w).toNat / 32 = (funct7Field w).toNat := by
  rw [immI, BitVec.toNat_setWidth_of_le (by decide), funct7Field, BitVec.extractLsb'_toNat, BitVec.extractLsb'_toNat,
    Nat.shiftRight_eq_div_pow, Nat.shiftRight_eq_div_pow]
  omega

end

section
variable {funct3 : BitVec 3} {funct7 : BitVec 7} {f : RegNum → RegNum → Word → Instr} {imm : Word}
  (r₁ r₂ : RegNum)

theorem wf_of_registerOp {f : RegNum → RegNum → RegNum → Instr} (h : registerOp funct3 funct7 = some f)
    (rd rs1 rs2 : RegNum) : (f rd rs1 rs2).wf = true := by
  unfold registerOp at h
  split at h <;> cases h <;> rfl

theorem wf_of_immediateOp (h : immediateOp funct3 funct7 = some f) (himm : imm.toNat < 2 ^ 12)
    (hdiv : imm.toNat / 32 = funct7.toNat) : (f r₁ r₂ imm).wf = true := by
  unfold immediateOp at h
  split at h
  case h_2 =>
    split_ifs at h with h7
    cases h
    have hzero : imm.toNat / 32 = 0 := by rw [hdiv, h7]; rfl
    exact decide_eq_true (by omega)
  case h_6 =>
    split_ifs at h with h7 h7
    · cases h
      have hzero : imm.toNat / 32 = 0 := by rw [hdiv, h7]; rfl
      exact decide_eq_true (by omega)
    · cases h
      have htop : imm.toNat / 32 = 32 := by rw [hdiv, h7]; rfl
      exact decide_eq_true (by omega)
  case h_9 => cases h
  all_goals
    cases h
    exact decide_eq_true himm

theorem wf_of_loadOp (h : loadOp funct3 = some f) (himm : imm.toNat < 2 ^ 12) : (f r₁ r₂ imm).wf = true := by
  unfold loadOp at h
  split at h <;> cases h <;> exact decide_eq_true himm

theorem wf_of_jalrOp (h : jalrOp funct3 = some f) (himm : imm.toNat < 2 ^ 12) : (f r₁ r₂ imm).wf = true := by
  unfold jalrOp at h
  split at h <;> cases h
  exact decide_eq_true himm

theorem wf_of_storeOp (h : storeOp funct3 = some f) (himm : imm.toNat < 2 ^ 12) : (f r₁ r₂ imm).wf = true := by
  unfold storeOp at h
  split at h <;> cases h <;> exact decide_eq_true himm

theorem wf_of_branchOp (h : branchOp funct3 = some f) (himm : imm.toNat < 2 ^ 13 ∧ imm.toNat % 2 = 0) :
    (f r₁ r₂ imm).wf = true := by
  unfold branchOp at h
  split at h <;> cases h <;> exact decide_eq_true himm

end

theorem Decodes.wf {w : Word} {i : Instr} (h : Decodes w i) : i.wf = true := by
  cases h with
  | register hop hmk => exact wf_of_registerOp hmk _ _ _
  | immediateAlu hop hmk => exact wf_of_immediateOp _ _ hmk (immI_lt w) (immI_div w)
  | load hop hmk => exact wf_of_loadOp _ _ hmk (immI_lt w)
  | jalr hop hmk => exact wf_of_jalrOp _ _ hmk (immI_lt w)
  | store hop hmk => exact wf_of_storeOp _ _ hmk (immS_lt w)
  | branch hop hmk => exact wf_of_branchOp _ _ hmk (immB_range w)
  | lui | auipc => exact decide_eq_true (immU_lt w)
  | jal => exact decide_eq_true (immJ_range w)

/-- Settles O3: an immediate has the bits its format lays out and no others, and the shift rows fix the top seven. -/
theorem decodedImmediatesInRange : Obligations.DecodedImmediatesInRange :=
  fun _ _ h => (decode_eq_ok_iff.1 h).wf

/-! ## The rows of the opcode table -/

theorem opcodeRow (i : Instr) : Laws.OpcodeRow.Statement i := by
  cases i
  case add => exact Laws.OpcodeRow.add _ _ _
  case sub => exact Laws.OpcodeRow.sub _ _ _
  case xor => exact Laws.OpcodeRow.xor _ _ _
  case or => exact Laws.OpcodeRow.or _ _ _
  case and => exact Laws.OpcodeRow.and _ _ _
  case sll => exact Laws.OpcodeRow.sll _ _ _
  case srl => exact Laws.OpcodeRow.srl _ _ _
  case sra => exact Laws.OpcodeRow.sra _ _ _
  case slt => exact Laws.OpcodeRow.slt _ _ _
  case sltu => exact Laws.OpcodeRow.sltu _ _ _
  case addi => exact Laws.OpcodeRow.addi _ _ _
  case xori => exact Laws.OpcodeRow.xori _ _ _
  case ori => exact Laws.OpcodeRow.ori _ _ _
  case andi => exact Laws.OpcodeRow.andi _ _ _
  case slli => exact Laws.OpcodeRow.slli _ _ _
  case srli => exact Laws.OpcodeRow.srli _ _ _
  case srai => exact Laws.OpcodeRow.srai _ _ _
  case slti => exact Laws.OpcodeRow.slti _ _ _
  case sltiu => exact Laws.OpcodeRow.sltiu _ _ _
  case lb => exact Laws.OpcodeRow.lb _ _ _
  case lh => exact Laws.OpcodeRow.lh _ _ _
  case lw => exact Laws.OpcodeRow.lw _ _ _
  case lbu => exact Laws.OpcodeRow.lbu _ _ _
  case lhu => exact Laws.OpcodeRow.lhu _ _ _
  case jalr => exact Laws.OpcodeRow.jalr _ _ _
  case sb => exact Laws.OpcodeRow.sb _ _ _
  case sh => exact Laws.OpcodeRow.sh _ _ _
  case sw => exact Laws.OpcodeRow.sw _ _ _
  case beq => exact Laws.OpcodeRow.beq _ _ _
  case bne => exact Laws.OpcodeRow.bne _ _ _
  case blt => exact Laws.OpcodeRow.blt _ _ _
  case bge => exact Laws.OpcodeRow.bge _ _ _
  case bltu => exact Laws.OpcodeRow.bltu _ _ _
  case bgeu => exact Laws.OpcodeRow.bgeu _ _ _
  case lui => exact Laws.OpcodeRow.lui _ _
  case auipc => exact Laws.OpcodeRow.auipc _ _
  case jal => exact Laws.OpcodeRow.jal _ _

/-! The three masks keep the opcode, the opcode and `funct3`, and these and `funct7`. -/

section
variable {w m : Word}

theorem opcodeField_of_opcodeMask (h : w &&& 0x0000007F#32 = m) : opcodeField w = opcodeField m := by
  rw [← encR_fields w, encR_and_opcodeMask] at h
  subst h
  exact (opcodeField_encR ..).symm

theorem fields_of_funct3Mask (h : w &&& 0x0000707F#32 = m) :
    opcodeField w = opcodeField m ∧ funct3Field w = funct3Field m := by
  rw [← encR_fields w, encR_and_funct3Mask] at h
  subst h
  exact ⟨(opcodeField_encR ..).symm, (funct3Field_encR ..).symm⟩

theorem fields_of_functMask (h : w &&& 0xFE00707F#32 = m) :
    opcodeField w = opcodeField m ∧ funct3Field w = funct3Field m ∧ funct7Field w = funct7Field m := by
  rw [← encR_fields w, encR_and_functMask] at h
  subst h
  exact ⟨(opcodeField_encR ..).symm, (funct3Field_encR ..).symm, (funct7Field_encR ..).symm⟩

end

/-- A word with the fixed bits of a row decodes to an instruction of the row (R71 to R77). -/
theorem exists_decodes_of_row {w : Word} (i : Instr) (h : w &&& i.row.1 = i.row.2) :
    ∃ j, Decodes w j ∧ j.row = i.row := by
  cases i <;> simp only [Instr.row] at h
  case add | sub | xor | or | and | sll | srl | sra | slt | sltu =>
    all_goals
      obtain ⟨hop, hf3, hf7⟩ := fields_of_functMask h
      exact ⟨_, .register hop (by rw [hf3, hf7]; rfl), rfl⟩
  case slli | srli | srai =>
    all_goals
      obtain ⟨hop, hf3, hf7⟩ := fields_of_functMask h
      exact ⟨_, .immediateAlu hop (by rw [hf3, hf7]; rfl), rfl⟩
  case addi | xori | ori | andi | slti | sltiu =>
    all_goals
      obtain ⟨hop, hf3⟩ := fields_of_funct3Mask h
      exact ⟨_, .immediateAlu hop (by rw [hf3]; rfl), rfl⟩
  case lb | lh | lw | lbu | lhu =>
    all_goals
      obtain ⟨hop, hf3⟩ := fields_of_funct3Mask h
      exact ⟨_, .load hop (by rw [hf3]; rfl), rfl⟩
  case jalr =>
    obtain ⟨hop, hf3⟩ := fields_of_funct3Mask h
    exact ⟨_, .jalr hop (by rw [hf3]; rfl), rfl⟩
  case sb | sh | sw =>
    all_goals
      obtain ⟨hop, hf3⟩ := fields_of_funct3Mask h
      exact ⟨_, .store hop (by rw [hf3]; rfl), rfl⟩
  case beq | bne | blt | bge | bltu | bgeu =>
    all_goals
      obtain ⟨hop, hf3⟩ := fields_of_funct3Mask h
      exact ⟨_, .branch hop (by rw [hf3]; rfl), rfl⟩
  case lui => exact ⟨_, .lui (opcodeField_of_opcodeMask h), rfl⟩
  case auipc => exact ⟨_, .auipc (opcodeField_of_opcodeMask h), rfl⟩
  case jal => exact ⟨_, .jal (opcodeField_of_opcodeMask h), rfl⟩

/-- Settles O4: the fixed bits of a row are the opcode and the funct fields the decoder consults for it; and a decoded
instruction encodes back to its word, which has the fixed bits of its row. -/
theorem opcodeTableSelectsOperation : Obligations.OpcodeTableSelectsOperation := by
  intro w i
  constructor
  · intro h
    obtain ⟨j, hj, hrow⟩ := exists_decodes_of_row i h
    exact ⟨j, decode_eq_ok_iff.2 hj, hrow⟩
  · rintro ⟨j, hj, hrow⟩
    have hdec := decode_eq_ok_iff.1 hj
    have hfixed := opcodeRow j hdec.wf
    rwa [hdec.encode_eq, hrow] at hfixed

end Sys2Proof
end

section
/-! The two decode errors over words: which funct fields a sub-group recognises (spec/30_encoding.md R70 to R79). -/

namespace Sys2Proof

/-- The funct fields are those of a row of the sub-group (R71 to R76); Lui, Auipc and Jal consult none. -/
def Group.recognises (g : Group) (funct3 : BitVec 3) (funct7 : BitVec 7) : Bool :=
  match g with
  | .register => (registerOp funct3 funct7).isSome
  | .immediateAlu => (immediateOp funct3 funct7).isSome
  | .load => (loadOp funct3).isSome
  | .jalr => (jalrOp funct3).isSome
  | .store => (storeOp funct3).isSome
  | .branch => (branchOp funct3).isSome
  | .lui => true
  | .auipc => true
  | .jal => true

theorem decodeGroup_eq_error_iff {g : Group} {w : Word} {e : DecodeError} :
    decodeGroup g w = .error e ↔ ¬ g.recognises (funct3Field w) (funct7Field w) ∧ e = .functError := by
  cases g <;> simp only [decodeGroup, Group.recognises, reduceCtorEq, not_true_eq_false, false_and]
  case register => cases registerOp (funct3Field w) (funct7Field w) <;> simp [eq_comm]
  case immediateAlu => cases immediateOp (funct3Field w) (funct7Field w) <;> simp [eq_comm]
  case load => cases loadOp (funct3Field w) <;> simp [eq_comm]
  case jalr => cases jalrOp (funct3Field w) <;> simp [eq_comm]
  case store => cases storeOp (funct3Field w) <;> simp [eq_comm]
  case branch => cases branchOp (funct3Field w) <;> simp [eq_comm]

theorem decode_eq_error_iff {w : Word} {e : DecodeError} : decode w = .error e ↔
    (groupOf (opcodeField w) = none ∧ e = .opcodeError) ∨
    (∃ g, opcodeField w = Group.opcode g ∧ ¬ g.recognises (funct3Field w) (funct7Field w) ∧ e = .functError) := by
  cases hg : groupOf (opcodeField w) with
  | none =>
    have hop (g : Group) : opcodeField w ≠ g.opcode := fun h => by rw [h, groupOf_opcode] at hg; cases hg
    have hdec : decode w = .error .opcodeError := by simp only [decode, hg]
    constructor
    · intro h
      cases hdec.symm.trans h
      exact .inl ⟨rfl, rfl⟩
    · rintro (⟨-, rfl⟩ | ⟨g, h, -⟩)
      · exact hdec
      · exact absurd h (hop g)
  | some g =>
    have hop := groupOf_eq_some_iff.1 hg
    have huniq (g' : Group) (h : opcodeField w = g'.opcode) : g' = g := by
      rw [h, groupOf_opcode] at hg
      cases hg
      rfl
    rw [decode_of_opcode hop, decodeGroup_eq_error_iff]
    constructor
    · rintro ⟨hfunct, he⟩
      exact .inr ⟨g, hop, hfunct, he⟩
    · rintro (⟨h, -⟩ | ⟨g', hop', hfunct, he⟩)
      · cases h
      · exact huniq g' hop' ▸ ⟨hfunct, he⟩

/-! ## The rows of the tables -/

theorem groupOf_eq_none_iff (op : BitVec 7) : groupOf op = none ↔ op ∉ [0b0110011#7, 0b0010011#7, 0b0000011#7,
    0b1100111#7, 0b0100011#7, 0b1100011#7, 0b0110111#7, 0b0010111#7, 0b1101111#7] := by
  revert op; decide

theorem registerOp_isSome_iff (funct3 : BitVec 3) (funct7 : BitVec 7) :
    (registerOp funct3 funct7).isSome = true ↔ (funct3, funct7) ∈
      [(0b000#3, 0b0000000#7), (0b000#3, 0b0100000#7), (0b001#3, 0b0000000#7), (0b010#3, 0b0000000#7),
        (0b011#3, 0b0000000#7), (0b100#3, 0b0000000#7), (0b101#3, 0b0000000#7), (0b101#3, 0b0100000#7),
        (0b110#3, 0b0000000#7), (0b111#3, 0b0000000#7)] := by
  constructor
  · intro h
    unfold registerOp at h
    split at h
    case h_11 => cases h
    all_goals decide
  · intro h
    fin_cases h <;> rfl

theorem immediateOp_isSome_iff (funct3 : BitVec 3) (funct7 : BitVec 7) :
    (immediateOp funct3 funct7).isSome = true ↔
      funct3 ∈ [0b000#3, 0b010#3, 0b011#3, 0b100#3, 0b110#3, 0b111#3] ∨
      (funct3, funct7) ∈ [(0b001#3, 0b0000000#7), (0b101#3, 0b0000000#7), (0b101#3, 0b0100000#7)] := by
  revert funct3 funct7
  decide

theorem loadOp_isSome_iff : ∀ funct3 : BitVec 3,
    (loadOp funct3).isSome = true ↔ funct3 ∈ [0b000#3, 0b001#3, 0b010#3, 0b100#3, 0b101#3] := by decide

theorem jalrOp_isSome_iff : ∀ funct3 : BitVec 3, (jalrOp funct3).isSome = true ↔ funct3 ∈ [0b000#3] := by decide

theorem storeOp_isSome_iff : ∀ funct3 : BitVec 3,
    (storeOp funct3).isSome = true ↔ funct3 ∈ [0b000#3, 0b001#3, 0b010#3] := by decide

theorem branchOp_isSome_iff : ∀ funct3 : BitVec 3,
    (branchOp funct3).isSome = true ↔ funct3 ∈ [0b000#3, 0b001#3, 0b100#3, 0b101#3, 0b110#3, 0b111#3] := by decide

/-! ## The errors -/

theorem decode_eq_opcodeError_iff (w : Word) : decode w = .error .opcodeError ↔ groupOf (opcodeField w) = none := by
  simp [decode_eq_error_iff]

theorem decode_eq_functError_iff (w : Word) : decode w = .error .functError ↔
    ∃ g, opcodeField w = Group.opcode g ∧ ¬ g.recognises (funct3Field w) (funct7Field w) := by
  simp [decode_eq_error_iff]

theorem exists_group_iff {p : Group → Prop} : (∃ g, p g) ↔ p .register ∨ p .immediateAlu ∨ p .load ∨ p .jalr ∨
    p .store ∨ p .branch ∨ p .lui ∨ p .auipc ∨ p .jal := by
  constructor
  · rintro ⟨g, h⟩
    cases g <;> simp only [h, true_or, or_true]
  · rintro (h | h | h | h | h | h | h | h | h) <;> exact ⟨_, h⟩

/-- The unrecognised combinations of a sub-group as R79 lists them. -/
theorem not_recognises_iff (funct3 : BitVec 3) (funct7 : BitVec 7) :
    (¬ Group.recognises .immediateAlu funct3 funct7 ↔
      (funct3 = 0b001#3 ∧ funct7 ≠ 0b0000000#7) ∨ (funct3 = 0b101#3 ∧ funct7 ∉ [0b0000000#7, 0b0100000#7])) ∧
    (¬ Group.recognises .load funct3 funct7 ↔ funct3 ∈ [0b011#3, 0b110#3, 0b111#3]) ∧
    (¬ Group.recognises .jalr funct3 funct7 ↔ funct3 ≠ 0b000#3) ∧
    (¬ Group.recognises .store funct3 funct7 ↔ funct3 ∈ [0b011#3, 0b100#3, 0b101#3, 0b110#3, 0b111#3]) ∧
    (¬ Group.recognises .branch funct3 funct7 ↔ funct3 ∈ [0b010#3, 0b011#3]) := by
  simp only [Group.recognises, immediateOp_isSome_iff, loadOp_isSome_iff, jalrOp_isSome_iff, storeOp_isSome_iff,
    branchOp_isSome_iff]
  have hcases : ∀ f : BitVec 3, f ∈ [0b000#3, 0b001#3, 0b010#3, 0b011#3, 0b100#3, 0b101#3, 0b110#3, 0b111#3] := by
    decide
  have hf := hcases funct3
  fin_cases hf <;> simp

/-- Settles O5: the opcode selects one sub-group, whose table gives the recognised funct fields. -/
theorem wordDecodeErrors : Obligations.WordDecodeErrors := by
  intro w
  obtain ⟨himmediate, hload, hjalr, hstore, hbranch⟩ := not_recognises_iff (funct3Field w) (funct7Field w)
  refine ⟨?_, ?_, fun e h => ?_⟩
  · rw [decode_eq_opcodeError_iff, groupOf_eq_none_iff]
  · rw [decode_eq_functError_iff, exists_group_iff, himmediate, hload, hjalr, hstore, hbranch]
    simp only [Group.recognises, Group.opcode, registerOp_isSome_iff, and_or_left, or_assoc, not_true_eq_false,
      and_false, or_false]
  · exact (decode_eq_error_iff.1 h).imp And.right fun ⟨_, _, _, he⟩ => he

end Sys2Proof
end

section
/-! The checks of the text decoder (spec/30_encoding.md R82 to R84): which characters pass each check, what a text that
passes all of them is, and from that every outcome of the decoder over a text slot. -/

namespace Sys2Proof

/-! ## Opcode and funct characters -/

section
variable {t : List Char}

theorem isBit_of_textBits {n a : Nat} {v : BitVec n} (h : textBits n t a = some v) :
    (textField t a n).all isBit = true := by
  unfold textBits at h
  split at h
  · assumption
  · cases h

theorem textGroup_eq_some_iff {g : Group} : textGroup t = some g ↔ textBits 7 t 25 = some g.opcode := by
  cases h : textBits 7 t 25 with
  | none => simp [textGroup, h]
  | some op => simp only [textGroup, h, groupOf_eq_some_iff, Option.some.injEq]

/-- A field whose bits satisfy a table's condition is, character for character, one of the table's rows. -/
theorem textBits_any_iff {n a : Nat} (hlen : (textField t a n).length = n) {p : BitVec n → Bool}
    {rows : List (BitVec n)} (hrows : ∀ v, p v = true ↔ v ∈ rows) :
    (textBits n t a).any p = true ↔ textField t a n ∈ rows.map fun v => bitsText n v.toNat := by
  simp only [Option.any_eq_true, textBits_eq_some n t a hlen, hrows, List.mem_map]
  exact exists_congr fun v => and_comm.trans (and_congr_right' eq_comm)

theorem textBits_any_any_iff {m n a b : Nat} (hm : (textField t a m).length = m) (hn : (textField t b n).length = n)
    {p : BitVec m → BitVec n → Bool} {rows : List (BitVec m × BitVec n)} (hrows : ∀ u v, p u v = true ↔ (u, v) ∈ rows) :
    ((textBits m t a).any fun u => (textBits n t b).any (p u)) = true ↔
      (textField t a m, textField t b n) ∈ rows.map fun r => (bitsText m r.1.toNat, bitsText n r.2.toNat) := by
  simp only [Option.any_eq_true, textBits_eq_some _ t _ hm, textBits_eq_some _ t _ hn, hrows, List.mem_map, Prod.exists,
    Prod.mk.injEq]
  constructor
  · rintro ⟨u, hu, v, hv, huv⟩
    exact ⟨u, v, huv, hu.symm, hv.symm⟩
  · rintro ⟨u, v, huv, hu, hv⟩
    exact ⟨u, hu.symm, v, hv.symm, huv⟩

theorem textFunctOk_register : textFunctOk .register t =
    (textBits 3 t 17).any fun f3 => (textBits 7 t 0).any fun f7 => (registerOp f3 f7).isSome := by
  cases h3 : textBits 3 t 17 <;> cases h7 : textBits 7 t 0 <;> simp [textFunctOk, h3, h7]

theorem textFunctOk_load : textFunctOk .load t = (textBits 3 t 17).any fun f3 => (loadOp f3).isSome := by
  cases h3 : textBits 3 t 17 <;> simp [textFunctOk, h3]

theorem textFunctOk_jalr : textFunctOk .jalr t = (textBits 3 t 17).any fun f3 => (jalrOp f3).isSome := by
  cases h3 : textBits 3 t 17 <;> simp [textFunctOk, h3]

theorem textFunctOk_store : textFunctOk .store t = (textBits 3 t 17).any fun f3 => (storeOp f3).isSome := by
  cases h3 : textBits 3 t 17 <;> simp [textFunctOk, h3]

theorem textFunctOk_branch : textFunctOk .branch t = (textBits 3 t 17).any fun f3 => (branchOp f3).isSome := by
  cases h3 : textBits 3 t 17 <;> simp [textFunctOk, h3]

theorem funct3_shift_iff : ∀ f3 : BitVec 3, (f3 = 0b001#3 ∨ f3 = 0b101#3) ↔
    f3 ∉ [0b000#3, 0b010#3, 0b011#3, 0b100#3, 0b110#3, 0b111#3] := by decide

/-- The immediate-ALU rows that `funct3` alone selects, and the shifts, for which `funct7` is consulted too (R72). -/
theorem textFunctOk_immediateAlu : textFunctOk .immediateAlu t =
    (((textBits 3 t 17).any fun f3 => decide (f3 ∈ [0b000#3, 0b010#3, 0b011#3, 0b100#3, 0b110#3, 0b111#3])) ||
     (textBits 3 t 17).any fun f3 => (textBits 7 t 0).any fun f7 =>
      decide ((f3, f7) ∈ [(0b001#3, 0b0000000#7), (0b101#3, 0b0000000#7), (0b101#3, 0b0100000#7)])) := by
  cases h3 : textBits 3 t 17 with
  | none => simp only [textFunctOk, h3, Option.any_none, Bool.or_self]
  | some f3 =>
    by_cases hshift : f3 = 0b001#3 ∨ f3 = 0b101#3
    · have hplain := (funct3_shift_iff f3).1 hshift
      have hrow (f7 : BitVec 7) : (immediateOp f3 f7).isSome =
          decide ((f3, f7) ∈ [(0b001#3, 0b0000000#7), (0b101#3, 0b0000000#7), (0b101#3, 0b0100000#7)]) := by
        rw [Bool.eq_iff_iff, decide_eq_true_iff, immediateOp_isSome_iff, or_iff_right hplain]
      cases h7 : textBits 7 t 0 <;>
        simp only [textFunctOk, h3, h7, if_pos hshift, hrow, Option.any_some, Option.any_none, decide_eq_false hplain,
          Bool.false_or]
    · have hplain := not_not.1 (mt (funct3_shift_iff f3).2 hshift)
      simp only [textFunctOk, h3, if_neg hshift, Option.any_some, decide_eq_true hplain, Bool.true_or]

/-- The text of a word passes the funct check exactly where its word does. -/
theorem textFunctOk_wordText (g : Group) (w : Word) :
    textFunctOk g (wordText w) = g.recognises (funct3Field w) (funct7Field w) := by
  cases g <;> simp only [textFunctOk, textFunct3_wordText, textFunct7_wordText, Group.recognises]
  case immediateAlu =>
    split_ifs with hshift
    · rfl
    · exact ((immediateOp_isSome_iff _ _).2 (.inl (not_not.1 (mt (funct3_shift_iff _).2 hshift)))).symm

/-! ## Character for character -/

theorem textGroup_iff (hlen : t.length = 32) (g : Group) : textGroup t = some g ↔ (g, textField t 25 7) ∈
    [(Group.register, "0110011".toList), (.immediateAlu, "0010011".toList), (.load, "0000011".toList),
      (.jalr, "1100111".toList), (.store, "0100011".toList), (.branch, "1100011".toList), (.lui, "0110111".toList),
      (.auipc, "0010111".toList), (.jal, "1101111".toList)] := by
  rw [textGroup_eq_some_iff, textBits_eq_some 7 t 25 (textField_length t 25 7 hlen (by decide))]
  cases g <;> simp [Group.opcode, bitsText]

theorem textFunctOk_register_iff (hlen : t.length = 32) : textFunctOk .register t = true ↔
    (textField t 17 3, textField t 0 7) ∈
      [("000".toList, "0000000".toList), ("000".toList, "0100000".toList), ("001".toList, "0000000".toList),
        ("010".toList, "0000000".toList), ("011".toList, "0000000".toList), ("100".toList, "0000000".toList),
        ("101".toList, "0000000".toList), ("101".toList, "0100000".toList), ("110".toList, "0000000".toList),
        ("111".toList, "0000000".toList)] := by
  have h3 := textField_length t 17 3 hlen (by decide)
  have h7 := textField_length t 0 7 hlen (by decide)
  rw [textFunctOk_register, textBits_any_any_iff h3 h7 registerOp_isSome_iff]
  rfl

theorem textFunctOk_immediateAlu_iff (hlen : t.length = 32) : textFunctOk .immediateAlu t = true ↔
    textField t 17 3 ∈ ["000".toList, "010".toList, "011".toList, "100".toList, "110".toList, "111".toList] ∨
    (textField t 17 3, textField t 0 7) ∈ [("001".toList, "0000000".toList), ("101".toList, "0000000".toList),
      ("101".toList, "0100000".toList)] := by
  have h3 := textField_length t 17 3 hlen (by decide)
  have h7 := textField_length t 0 7 hlen (by decide)
  rw [textFunctOk_immediateAlu, Bool.or_eq_true, textBits_any_iff h3 (fun _ => decide_eq_true_iff),
    textBits_any_any_iff h3 h7 (fun _ _ => decide_eq_true_iff)]
  rfl

/-- The sub-groups for which `funct3` alone is consulted (R73 to R76). -/
theorem textFunctOk_funct3_iff (hlen : t.length = 32) :
    (textFunctOk .load t = true ↔
      textField t 17 3 ∈ ["000".toList, "001".toList, "010".toList, "100".toList, "101".toList]) ∧
    (textFunctOk .jalr t = true ↔ textField t 17 3 ∈ ["000".toList]) ∧
    (textFunctOk .store t = true ↔ textField t 17 3 ∈ ["000".toList, "001".toList, "010".toList]) ∧
    (textFunctOk .branch t = true ↔ textField t 17 3 ∈
      ["000".toList, "001".toList, "100".toList, "101".toList, "110".toList, "111".toList]) := by
  have h3 := textField_length t 17 3 hlen (by decide)
  rw [textFunctOk_load, textFunctOk_jalr, textFunctOk_store, textFunctOk_branch, textBits_any_iff h3 loadOp_isSome_iff,
    textBits_any_iff h3 jalrOp_isSome_iff, textBits_any_iff h3 storeOp_isSome_iff,
    textBits_any_iff h3 branchOp_isSome_iff]
  exact ⟨Iff.rfl, Iff.rfl, Iff.rfl, Iff.rfl⟩

/-! ## A text that passes every check -/

theorem all_isBit_add (t : List Char) (a m n : Nat) : (textField t a (m + n)).all isBit = true ↔
    (textField t a m).all isBit = true ∧ (textField t (a + m) n).all isBit = true := by
  have happend : textField t a (m + n) = textField t a m ++ textField t (a + m) n := by
    simp only [textField, List.take_add, List.drop_drop]
  rw [happend, List.all_append, Bool.and_eq_true]

/-- The six fields of a text slot cover its characters (R61). -/
theorem all_isBit_iff_fields (hlen : t.length = 32) : t.all isBit = true ↔
    (textField t 0 7).all isBit = true ∧ (textField t 7 5).all isBit = true ∧ (textField t 12 5).all isBit = true ∧
    (textField t 17 3).all isBit = true ∧ (textField t 20 5).all isBit = true ∧
    (textField t 25 7).all isBit = true := by
  have hall : textField t 0 32 = t := by simp [textField, ← hlen]
  conv_lhs =>
    rw [← hall, all_isBit_add t 0 7 25, all_isBit_add t 7 5 20, all_isBit_add t 12 5 15, all_isBit_add t 17 3 12,
      all_isBit_add t 20 5 7]

/-- The funct characters a sub-group consults are binary where they match a row. -/
theorem funct_isBit {g : Group} (h : textFunctOk g t = true) :
    (g ∉ [.lui, .auipc, .jal] → (textField t 17 3).all isBit = true) ∧
    (g = .register → (textField t 0 7).all isBit = true) := by
  cases h3 : textBits 3 t 17 with
  | none => cases g <;> simp_all [textFunctOk]
  | some f3 =>
    refine ⟨fun _ => isBit_of_textBits h3, ?_⟩
    rintro rfl
    cases h7 : textBits 7 t 0 with
    | none => simp_all [textFunctOk]
    | some f7 => exact isBit_of_textBits h7

theorem textOperandError_eq_none_iff {g : Group} : textOperandError g t = none ↔
    (g.hasRd = true → (textField t 20 5).all isBit = true) ∧ (g.hasRs1 = true → (textField t 12 5).all isBit = true) ∧
    (g.hasRs2 = true → (textField t 7 5).all isBit = true) ∧ (g.immText t).all isBit = true := by
  unfold textOperandError
  split_ifs <;> simp_all

/-- The checks of a text slot leave no character out (R84). -/
theorem textOk_of_checks {g : Group} (hlen : t.length = 32) (hg : textGroup t = some g)
    (hf : textFunctOk g t = true) (ho : textOperandError g t = none) : textOk t = true := by
  obtain ⟨hrd, hrs1, hrs2, himm⟩ := textOperandError_eq_none_iff.1 ho
  obtain ⟨hfunct3, hfunct7⟩ := funct_isBit hf
  have hop := isBit_of_textBits (textGroup_eq_some_iff.1 hg)
  rw [textOk_iff, all_isBit_iff_fields hlen]
  cases g
  case register => exact ⟨hlen, hfunct7 rfl, hrs2 rfl, hrs1 rfl, hfunct3 (by decide), hrd rfl, hop⟩
  case immediateAlu | load | jalr =>
    all_goals
      obtain ⟨h0, h7⟩ := (all_isBit_add t 0 7 5).1 himm
      exact ⟨hlen, h0, h7, hrs1 rfl, hfunct3 (by decide), hrd rfl, hop⟩
  case store | branch =>
    all_goals
      rw [Group.immText, List.all_append, Bool.and_eq_true] at himm
      obtain ⟨h0, h20⟩ := himm
      exact ⟨hlen, h0, hrs2 rfl, hrs1 rfl, hfunct3 (by decide), h20, hop⟩
  case lui | auipc | jal =>
    all_goals
      obtain ⟨h0, hrest⟩ := (all_isBit_add t 0 7 13).1 himm
      obtain ⟨h7, hrest⟩ := (all_isBit_add t 7 5 8).1 hrest
      obtain ⟨h12, h17⟩ := (all_isBit_add t 12 5 3).1 hrest
      exact ⟨hlen, h0, h7, h12, h17, hrd rfl, hop⟩

/-! ## The outcomes of the decoder -/

theorem decodeText_of_textOk (h : textOk t = true) : decodeText t = decode (textWord t) := by
  rw [← decodeText_wordText, wordText_textWord h]

/-- The check of R84 that a text slot fails first, or the instruction of a text that fails none: `decodeText` read off
its outcome. -/
inductive TextDecodes (t : List Char) : Except DecodeError Instr → Prop
  | format (hlen : t.length ≠ 32) : TextDecodes t (.error .formatError)
  | opcode (hlen : t.length = 32) (hg : textGroup t = none) : TextDecodes t (.error .opcodeError)
  | funct {g} (hlen : t.length = 32) (hg : textGroup t = some g) (hf : ¬ textFunctOk g t = true) :
      TextDecodes t (.error .functError)
  | operand {g e} (hlen : t.length = 32) (hg : textGroup t = some g) (hf : textFunctOk g t = true)
      (he : textOperandError g t = some e) : TextDecodes t (.error e)
  | instr {i} (hok : textOk t = true) (hi : decode (textWord t) = .ok i) : TextDecodes t (.ok i)

/-- The word of a text that passes every check decodes. -/
theorem exists_decode_textWord {g : Group} (hok : textOk t = true) (hg : textGroup t = some g)
    (hf : textFunctOk g t = true) : ∃ i, decode (textWord t) = .ok i := by
  rw [← wordText_textWord hok, textGroup_wordText] at hg
  rw [← wordText_textWord hok, textFunctOk_wordText] at hf
  rw [decode_of_opcode (groupOf_eq_some_iff.1 hg)]
  cases hd : decodeGroup g (textWord t) with
  | ok i => exact ⟨i, rfl⟩
  | error e => exact absurd hf (decodeGroup_eq_error_iff.1 hd).1

theorem textDecodes_decodeText (t : List Char) : TextDecodes t (decodeText t) := by
  by_cases hlen : t.length = 32
  case neg => rw [decodeText, if_pos hlen]; exact .format hlen
  cases hg : textGroup t with
  | none => simp only [decodeText, hlen, hg]; exact .opcode hlen hg
  | some g =>
    by_cases hf : textFunctOk g t = true
    case neg => simp only [decodeText, hlen, hg, hf]; exact .funct hlen hg hf
    cases ho : textOperandError g t with
    | some e => simp only [decodeText, hlen, hg, hf, ho]; exact .operand hlen hg hf ho
    | none =>
      have hok := textOk_of_checks hlen hg hf ho
      obtain ⟨i, hi⟩ := exists_decode_textWord hok hg hf
      rw [decodeText_of_textOk hok, hi]
      exact .instr hok hi

theorem decodeText_eq_iff {r : Except DecodeError Instr} : decodeText t = r ↔ TextDecodes t r := by
  constructor
  · rintro rfl
    exact textDecodes_decodeText t
  · intro h
    cases h with
    | format hlen => exact if_pos hlen
    | opcode hlen hg => simp [decodeText, hlen, hg]
    | funct hlen hg hf => simp [decodeText, hlen, hg, hf]
    | operand hlen hg hf he => simp [decodeText, hlen, hg, hf, he]
    | instr hok hi => rw [decodeText_of_textOk hok, hi]

end

end Sys2Proof
end

section
/-! The seven errors of a text slot, each by the characters that cause it (spec/30_encoding.md R70 to R76, R83, R84;
spec/60_exceptions.md R262 to R268). -/

namespace Sys2Proof.Machine

section
variable {t : List Char} {g : Group}

/-! ## Defects of the operand fields -/

theorem nonBinaryAt_iff {lo hi n : Nat} (h : lo + n = hi + 1) :
    NonBinaryAt t lo hi ↔ (textField t lo n).all isBit = false := by
  have hbit (c : Char) : ¬ isBit c = true ↔ c ≠ '0' ∧ c ≠ '1' := by simp [isBit]
  have hchar (j : Nat) : (textField t lo n)[j]? = if j < n then t[lo + j]? else none := by
    simp [textField, List.getElem?_take]
  simp only [List.all_eq_false, List.mem_iff_getElem?, hbit, hchar]
  constructor
  · rintro ⟨k, c, hlo, hhi, hc, hne⟩
    refine ⟨c, ⟨k - lo, ?_⟩, hne⟩
    rw [if_pos (by omega), Nat.add_sub_cancel' hlo, hc]
  · rintro ⟨c, ⟨j, hj⟩, hne⟩
    split_ifs at hj with hlt
    exact ⟨lo + j, c, by omega, by omega, hj, hne⟩

theorem rdDefect_iff : RdDefect t g ↔ (g.hasRd && !(textField t 20 5).all isBit) = true := by
  rw [RdDefect, nonBinaryAt_iff (n := 5) rfl]
  cases g <;> simp [Group.hasRd]

theorem rs1Defect_iff : Rs1Defect t g ↔ (g.hasRs1 && !(textField t 12 5).all isBit) = true := by
  rw [Rs1Defect, nonBinaryAt_iff (n := 5) rfl]
  cases g <;> simp [Group.hasRs1]

theorem rs2Defect_iff : Rs2Defect t g ↔ (g.hasRs2 && !(textField t 7 5).all isBit) = true := by
  rw [Rs2Defect, nonBinaryAt_iff (n := 5) rfl]
  cases g <;> simp [Group.hasRs2]

theorem immDefect_iff : ImmDefect t g ↔ (!(g.immText t).all isBit) = true := by
  rw [ImmDefect, nonBinaryAt_iff (n := 12) rfl, nonBinaryAt_iff (n := 7) rfl, nonBinaryAt_iff (n := 5) rfl,
    nonBinaryAt_iff (n := 20) rfl]
  cases g <;> simp [Group.immText, -List.all_eq_true, -List.all_eq_false]

/-- The operand check names the first field with a defect, in the order rd, rs1, rs2, immediate (R84, D2). -/
theorem textOperandError_iff (t : List Char) (g : Group) :
    (textOperandError g t = some .rdError ↔ RdDefect t g) ∧
    (textOperandError g t = some .rs1Error ↔ ¬ RdDefect t g ∧ Rs1Defect t g) ∧
    (textOperandError g t = some .rs2Error ↔ ¬ RdDefect t g ∧ ¬ Rs1Defect t g ∧ Rs2Defect t g) ∧
    (textOperandError g t = some .immError ↔
      ¬ RdDefect t g ∧ ¬ Rs1Defect t g ∧ ¬ Rs2Defect t g ∧ ImmDefect t g) := by
  rw [rdDefect_iff, rs1Defect_iff, rs2Defect_iff, immDefect_iff, textOperandError]
  split_ifs <;> simp [*]

theorem textOperandError_mem {e : DecodeError} (h : textOperandError g t = some e) :
    e ∈ [DecodeError.rdError, .rs1Error, .rs2Error, .immError] := by
  unfold textOperandError at h
  split_ifs at h <;> cases h <;> decide

/-! ## The checks before the operands -/

theorem decodeText_eq_formatError_iff : decodeText t = .error .formatError ↔ t.length ≠ 32 := by
  rw [decodeText_eq_iff]
  constructor
  · intro h
    cases h with
    | format hlen => exact hlen
    | operand _ _ _ he => exact absurd (textOperandError_mem he) (by decide)
  · exact .format

theorem decodeText_eq_opcodeError_iff : decodeText t = .error .opcodeError ↔ t.length = 32 ∧ textGroup t = none := by
  rw [decodeText_eq_iff]
  constructor
  · intro h
    cases h with
    | opcode hlen hg => exact ⟨hlen, hg⟩
    | operand _ _ _ he => exact absurd (textOperandError_mem he) (by decide)
  · rintro ⟨hlen, hg⟩
    exact .opcode hlen hg

theorem decodeText_eq_functError_iff : decodeText t = .error .functError ↔
    t.length = 32 ∧ ∃ g, textGroup t = some g ∧ ¬ textFunctOk g t = true := by
  rw [decodeText_eq_iff]
  constructor
  · intro h
    cases h with
    | funct hlen hg hf => exact ⟨hlen, _, hg, hf⟩
    | operand _ _ _ he => exact absurd (textOperandError_mem he) (by decide)
  · rintro ⟨hlen, g, hg, hf⟩
    exact .funct hlen hg hf

end

/-- Settles O55: a recognised opcode and a row's funct fields are, character for character, those of the tables. -/
theorem textOpcodeAndFunctErrors : Obligations.TextOpcodeAndFunctErrors := by
  intro t
  refine ⟨decodeText_eq_formatError_iff, textGroup_iff, decodeText_eq_opcodeError_iff, ?_⟩
  rw [decodeText_eq_functError_iff, exists_group_iff]
  refine and_congr_right fun hlen => ?_
  obtain ⟨hload, hjalr, hstore, hbranch⟩ := textFunctOk_funct3_iff hlen
  rw [textFunctOk_register_iff hlen, textFunctOk_immediateAlu_iff hlen, hload, hjalr, hstore, hbranch, not_or,
    List.mem_singleton]
  simp only [textFunctOk, not_true_eq_false, and_false, or_false]

/-! ## The operand errors -/

section
variable {t : List Char} {g : Group}

theorem reachesOperands_iff :
    ReachesOperands t g ↔ t.length = 32 ∧ textGroup t = some g ∧ textFunctOk g t = true := by
  refine and_congr_right fun hlen => and_congr_right fun hg => ?_
  simp [decodeText_eq_functError_iff, hlen, hg]

theorem decodeText_eq_operandError_iff {e : DecodeError}
    (he : e ∈ [DecodeError.rdError, .rs1Error, .rs2Error, .immError]) :
    decodeText t = .error e ↔ ∃ g, ReachesOperands t g ∧ textOperandError g t = some e := by
  simp only [decodeText_eq_iff, reachesOperands_iff]
  constructor
  · intro h
    cases h with
    | format | opcode | funct => exact absurd he (by decide)
    | operand hlen hg hf ho => exact ⟨_, ⟨hlen, hg, hf⟩, ho⟩
  · rintro ⟨g, ⟨hlen, hg, hf⟩, ho⟩
    exact .operand hlen hg hf ho

theorem decodeText_eq_ok_iff {i : Instr} :
    decodeText t = .ok i ↔ textOk t = true ∧ decode (textWord t) = .ok i := by
  rw [decodeText_eq_iff]
  constructor
  · intro h
    cases h with
    | instr hok hi => exact ⟨hok, hi⟩
  · rintro ⟨hok, hi⟩
    exact .instr hok hi

end

/-- Settles O8: an operand error is the answer of the operand check, made of a text that passes the checks before it. -/
theorem textErrorsNameTheirField : Obligations.TextErrorsNameTheirField := by
  intro t
  refine ⟨?_, ?_, ?_, ?_, fun i => decodeText_eq_ok_iff⟩
  all_goals
    rw [decodeText_eq_operandError_iff (by decide)]
    refine exists_congr fun g => and_congr_right' ?_
    obtain ⟨hrd, hrs1, hrs2, himm⟩ := textOperandError_iff t g
  · exact hrd
  · exact hrs1
  · exact hrs2
  · exact himm

end Sys2Proof.Machine
end

section
/-! The direction of the pc (spec/30_encoding.md R68, spec/45_jalr.md R203). -/

namespace Sys2Proof.Machine

/-- An offset below `2^21` moves a pc below `2^31` forwards: the sum does not wrap. -/
theorem le_toNat_add {pc v : Word} (hpc : pc.toNat < 2 ^ 31) (hv : v.toNat < 2 ^ 21) :
    pc.toNat ≤ (pc + v).toNat := by
  rw [BitVec.toNat_add_of_lt (by omega)]
  omega

/-- Settles O50: no immediate is negative, so the pc moves by 4 or by an offset below `2^21`; a fault entry keeps it. -/
theorem onlyJalrGoesBackwards : Obligations.OnlyJalrGoesBackwards := by
  intro i s t hwf hnum hpc h
  have hnext : s.pc.toNat ≤ s.nextPc.toNat := le_toNat_add hpc (by decide)
  cases executes_of_exec h with
  | jalr rd n _ hn => rw [hnum] at hn; cases hn
  | memFault | regFault => exact Nat.le_refl _
  | finish | store | passed => simpa using hnext
  | taken imm hjump => exact le_toNat_add hpc (jumpOffset_lt hwf hjump)
  | jal rd imm _ hjump => exact le_toNat_add hpc (jumpOffset_lt hwf hjump)

end Sys2Proof.Machine
end

section
/-! One host step and a run, outcome by outcome (spec/40_engine_step.md R100 to R108). -/

namespace Sys2Proof.Machine

variable {s t : State}

/-! ## The branches of a step -/

theorem step_of_latched {f : LatchedFault} (h : s.fault = some f) : step s = .fault f.report := by
  simp only [step, h]

theorem step_of_fetch_none (h : s.fault = none) (hx : s.fetch = none) : step s = .fault .programCounterOutOfBounds := by
  simp only [step, h, hx]

theorem step_of_decode_error {x : Slot} {e : DecodeError} (h : s.fault = none) (hx : s.fetch = some x)
    (he : x.decode = .error e) : step s = .fault (stepError e) := by
  simp only [step, h, hx, he]

theorem step_of_decode_ok {x : Slot} {i : Instr} (h : s.fault = none) (hx : s.fetch = some x)
    (hi : x.decode = .ok i) : step s = exec i s := by
  simp only [step, h, hx, hi]

/-! ## The outcome the host reads off a step -/

theorem hostStep_of_step_fault {r : Fault} (h : step s = .fault r) : hostStep s = (s, .failed r) := by
  simp only [hostStep, h]

theorem hostStep_of_step_clear (h : step s = .next t) (ht : t.fault = none) : hostStep s = (t, .success) := by
  simp only [hostStep, h, ht]

theorem hostStep_of_step_latched {f : LatchedFault} (h : step s = .next t) (ht : t.fault = some f) :
    hostStep s = (t, .failed f.report) := by
  simp only [hostStep, h, ht]

/-! ## What a step gives -/

/-- Settles O10: past the latch check, the fetch and the decode, a step is `exec`, and the host reads the latch. -/
theorem stepRunsDecodedInstruction : Obligations.StepRunsDecodedInstruction := by
  intro s x i hclear hx hi
  have hstep : step s = exec i s := step_of_decode_ok hclear hx hi
  refine ⟨hstep, fun t ht => ?_⟩
  have hnext : step s = .next t := hstep.trans ht
  exact ⟨hostStep_of_step_clear hnext, hostStep_of_step_latched hnext, hostStep_of_step_latched hnext⟩

/-- Settles O11: the latch is read first, and a step that answers `fault` keeps the state. -/
theorem latchedFaultIsReportedAgain : Obligations.LatchedFaultIsReportedAgain := by
  intro s f h
  have hstep : step s = .fault f.report := step_of_latched h
  exact ⟨hstep, hostStep_of_step_fault hstep⟩

/-- Settles O13: a decode error is answered as a `fault`, which keeps the state. -/
theorem decodeErrorChangesNothing : Obligations.DecodeErrorChangesNothing := by
  intro s x e hclear hx he
  have hstep : step s = .fault (stepError e) := step_of_decode_error hclear hx he
  exact ⟨hstep, hostStep_of_step_fault hstep⟩

/-! ## The end of the program -/

theorem State.fetch_eq_none_iff : s.fetch = none ↔ s.program.length ≤ s.pc.toNat / 4 := List.getElem?_eq_none_iff

theorem stepError_ne_outOfBounds (e : DecodeError) : stepError e ≠ .programCounterOutOfBounds := by
  cases e <;> decide

theorem LatchedFault.report_ne_outOfBounds (f : LatchedFault) : f.report ≠ .programCounterOutOfBounds := by
  cases f <;> decide

/-- The end of the program is the one outcome of this name: no decode error and no latched fault has it (R102, R106). -/
theorem fetch_eq_none_of_outOfBounds (h : hostStep s = (t, .failed .programCounterOutOfBounds)) : s.fetch = none := by
  rcases hostStep_cases s with ⟨f, -, hs⟩ | ⟨-, hx, -⟩ | ⟨x, e, -, -, -, hs⟩ | ⟨x, i, u, -, -, -, -, -, hs⟩ |
    ⟨x, i, f, -, -, -, -, hs⟩
  case inr.inl => exact hx
  all_goals
    rw [h] at hs
    injection hs with _ hr
  · exact absurd (Report.failed.inj hr).symm f.report_ne_outOfBounds
  · exact absurd (Report.failed.inj hr).symm (stepError_ne_outOfBounds e)
  · cases hr
  · exact absurd (Report.failed.inj hr).symm f.report_ne_outOfBounds

/-- Settles O12: an index past the program is a fetch of nothing, and no other step has that outcome. -/
theorem pastTheEndIsOutOfBounds : Obligations.PastTheEndIsOutOfBounds := by
  intro s hclear
  rw [← State.fetch_eq_none_iff]
  exact ⟨fun hx => hostStep_of_step_fault (step_of_fetch_none hclear hx), fetch_eq_none_of_outOfBounds⟩

/-! ## Failures stand -/

/-- Settles O15: a failed step returns its own state, or one with the latch set to the fault that it reports. -/
theorem failureRepeats : Obligations.FailureRepeats := by
  intro s t r h hr
  rcases hostStep_not_success h hr with rfl | ⟨f, -, rfl, rfl⟩
  · exact h
  · exact hostStep_of_step_fault (step_of_latched (s.takeFault_fault f))

/-- A run that ends, ends with a host step that is no Success (R108). -/
theorem hostRun_ends {fuel : Nat} {r : Report} (h : hostRun fuel s = (t, some r)) :
    ∃ u, hostStep u = (t, r) ∧ r ≠ .success := by
  induction fuel generalizing s with
  | zero => cases h
  | succ fuel ih =>
    rcases hs : hostStep s with ⟨u, q⟩
    simp only [hostRun, hs] at h
    cases q with
    | success => exact ih h
    | failed | unimplementedOperation =>
      cases h
      exact ⟨s, hs, Report.noConfusion⟩

/-- Settles O28: the last step of the run is no Success, so it repeats. -/
theorem runEndsInAStandingFailure : Obligations.RunEndsInAStandingFailure := by
  intro fuel s t r h
  obtain ⟨u, hu, hr⟩ := hostRun_ends h
  exact ⟨hr, failureRepeats u t r hu hr⟩

end Sys2Proof.Machine
end

section
/-! The register-register ALU (spec/42_alu_register.md): what each operator makes of its two words, and the one shape
in which the ten operations complete. -/

namespace Sys2Proof.Machine

/-! ## The operators -/

/-- R152: the low five bits are the remainder by 32. -/
@[simp] theorem shiftAmount_eq_mod (v : Word) : shiftAmount v = v.toNat % 32 := by
  simp [shiftAmount]

theorem toNat_shiftLeft (a b : Word) : (shiftLeft a b).toNat = a.toNat * 2 ^ (b.toNat % 32) % 2 ^ 32 := by
  rw [shiftLeft, shiftAmount_eq_mod, BitVec.toNat_shiftLeft, Nat.shiftLeft_eq]

theorem toNat_shiftRightLogical (a b : Word) : (shiftRightLogical a b).toNat = a.toNat / 2 ^ (b.toNat % 32) := by
  rw [shiftRightLogical, shiftAmount_eq_mod, BitVec.toNat_ushiftRight, Nat.shiftRight_eq_div_pow]

/-- R160: filling with the sign bit rounds the quotient down, also below zero. -/
theorem toInt_shiftRightArith (a b : Word) :
    (shiftRightArith a b).toInt = Int.fdiv a.toInt (2 ^ (b.toNat % 32)) := by
  have hpos : (0 : Int) ≤ 2 ^ (b.toNat % 32) := by positivity
  rw [shiftRightArith, shiftAmount_eq_mod, BitVec.toInt_sshiftRight, Int.shiftRight_eq_div_pow,
    Int.fdiv_eq_ediv_of_nonneg _ hpos]
  norm_cast

theorem truthWord_isLessSigned (a b : Word) :
    truthWord (isLessSigned a b) = if a.toInt < b.toInt then 1#32 else 0#32 := by
  simp only [truthWord, isLessSigned, decide_eq_true_eq]

theorem truthWord_isLessUnsigned (a b : Word) :
    truthWord (isLessUnsigned a b) = if a.toNat < b.toNat then 1#32 else 0#32 := by
  simp only [truthWord, isLessUnsigned, decide_eq_true_eq]

/-- R151, R154: a borrow is lost, so the difference is the exact one modulo `2^32`. -/
theorem toNat_sub_eq_emod (a b : Word) : ((a - b).toNat : Int) = ((a.toNat : Int) - (b.toNat : Int)) % 2 ^ 32 := by
  rw [BitVec.toNat_sub]
  omega

/-! ## The shape -/

/-- R150: an operation of this family completes with its operator's value, whatever is known of that value. -/
theorem State.aluRegister_completes {s : State} {op : Word → Word → Word} {rd rs1 rs2 : RegNum} {P : Word → Prop}
    (hP : P (op (s.reg rs1) (s.reg rs2))) :
    ∃ t v, s.aluRegister op rd rs1 rs2 = .next t ∧ P v ∧ WritesReg s t rd v (s.pc + 4#32) :=
  ⟨_, _, rfl, hP, s.finish_writesReg rd _⟩

/-! ## The obligations -/

/-- Settles O30: bit `k` of a bitwise operator's value is the operator on the bits `k`. -/
theorem xorOrAndAreBitwise : Obligations.XorOrAndAreBitwise := by
  intro s rd rs1 rs2
  refine ⟨decodeEncodeRoundTrip (.xor rd rs1 rs2) rfl, ?xor, decodeEncodeRoundTrip (.or rd rs1 rs2) rfl, ?or,
    decodeEncodeRoundTrip (.and rd rs1 rs2) rfl, ?and⟩
  case xor => exact State.aluRegister_completes fun _ => BitVec.getLsbD_xor
  case or => exact State.aluRegister_completes fun _ => BitVec.getLsbD_or
  case and => exact State.aluRegister_completes fun _ => BitVec.getLsbD_and

/-- Settles O31: the amount is `x[rs2]` modulo 32, and each shift is a product or a floor by that power of two. -/
theorem registerShifts : Obligations.RegisterShifts := by
  intro s rd rs1 rs2
  refine ⟨decodeEncodeRoundTrip (.sll rd rs1 rs2) rfl, ?sll, decodeEncodeRoundTrip (.srl rd rs1 rs2) rfl, ?srl,
    decodeEncodeRoundTrip (.sra rd rs1 rs2) rfl, ?sra⟩
  case sll => exact State.aluRegister_completes (toNat_shiftLeft _ _)
  case srl => exact State.aluRegister_completes (toNat_shiftRightLogical _ _)
  case sra => exact State.aluRegister_completes (toInt_shiftRightArith _ _)

/-- Settles O32: the comparison's truth value is written as the pattern 1 or 0. -/
theorem registerComparisons : Obligations.RegisterComparisons := by
  intro s rd rs1 rs2
  refine ⟨decodeEncodeRoundTrip (.slt rd rs1 rs2) rfl, ?slt, decodeEncodeRoundTrip (.sltu rd rs1 rs2) rfl, ?sltu⟩
  case slt =>
    exact State.aluRegister_completes (op := fun a b => truthWord (isLessSigned a b)) (truthWord_isLessSigned _ _)
  case sltu =>
    exact State.aluRegister_completes (op := fun a b => truthWord (isLessUnsigned a b)) (truthWord_isLessUnsigned _ _)

/-- Settles O29: a carry or a borrow out of bit 31 is lost. -/
theorem addAndSubWrapAround : Obligations.AddAndSubWrapAround := by
  intro s rd rs1 rs2
  refine ⟨decodeEncodeRoundTrip (.add rd rs1 rs2) rfl, ?add, decodeEncodeRoundTrip (.sub rd rs1 rs2) rfl, ?sub⟩
  case add => exact State.aluRegister_completes (BitVec.toNat_add _ _)
  case sub => exact State.aluRegister_completes (toNat_sub_eq_emod _ _)

end Sys2Proof.Machine
end

section
/-! The register-immediate ALU (spec/43_alu_immediate.md): the value of a 12-bit field and how it decodes, what each
operator makes of it, and the one shape in which the nine operations complete. -/

namespace Sys2Proof

/-! ## The value of a field -/

theorem toNat_immediate (m : BitVec 12) : (m.setWidth 32).toNat = m.toNat :=
  BitVec.toNat_setWidth_of_le (by decide)

/-- R180: the immediate is never negative. -/
theorem toInt_immediate (m : BitVec 12) : (m.setWidth 32).toInt = (m.toNat : Int) := by
  rw [BitVec.toInt_eq_toNat_of_lt (by rw [toNat_immediate]; omega), toNat_immediate]

/-- The immediate's bits from 12 on are zero, as those past the field's end are. -/
theorem getLsbD_immediate (m : BitVec 12) (k : Nat) : (m.setWidth 32).getLsbD k = m.getLsbD k := by
  rw [← BitVec.testBit_toNat, toNat_immediate, BitVec.testBit_toNat]

theorem toNat_shiftImmediate (f : BitVec 7) (n : BitVec 5) :
    ((f ++ n).setWidth 32).toNat = f.toNat * 32 + n.toNat := by
  rw [toNat_immediate, BitVec.toNat_append, ← Nat.shiftLeft_add_eq_or_of_lt n.isLt, Nat.shiftLeft_eq]

/-- R72: Slli and Srli decode with the amount itself. -/
theorem setWidth_zero_append (n : BitVec 5) : (0b0000000#7 ++ n).setWidth 32 = n.setWidth 32 := by
  apply BitVec.eq_of_toNat_eq
  rw [toNat_shiftImmediate, BitVec.toNat_setWidth_of_le (by decide)]
  simp

/-- R72: Srai decodes with 1024 more than the amount. -/
theorem setWidth_srai_append (n : BitVec 5) : (0b0100000#7 ++ n).setWidth 32 = 1024#32 + n.setWidth 32 := by
  apply BitVec.eq_of_toNat_eq
  rw [toNat_shiftImmediate, BitVec.toNat_add, BitVec.toNat_setWidth_of_le (by decide)]
  simp only [BitVec.toNat_ofNat]
  omega

/-- R152: whatever the top field, the amount is the low one. -/
theorem toNat_shiftImmediate_mod (f : BitVec 7) (n : BitVec 5) : ((f ++ n).setWidth 32).toNat % 32 = n.toNat := by
  rw [toNat_shiftImmediate]
  omega

/-! ## Decoding a field -/

section
variable {funct3 : BitVec 3} {mk : RegNum → RegNum → Word → Instr} (rd rs1 : RegNum)

/-- The I layout of a zero-extended field holds the field itself (R63). -/
theorem encI_setWidth (m : BitVec 12) (funct3 : BitVec 3) (op : BitVec 7) :
    encI (m.setWidth 32) rs1 funct3 rd op = m ++ rs1 ++ funct3 ++ rd ++ op := by
  rw [encI, BitVec.extractLsb'_setWidth_of_le (by decide), BitVec.extractLsb'_eq_self]

/-- R72: the row of `funct3` and of the field's top seven bits decodes with the field's magnitude. -/
theorem decode_immediateAlu (m : BitVec 12) (h : immediateOp funct3 (m.extractLsb' 5 7) = some mk) :
    decode (m ++ rs1 ++ funct3 ++ rd ++ 0b0010011#7) = .ok (mk rd rs1 (m.setWidth 32)) := by
  have hlt : (m.setWidth 32).toNat < 2 ^ 12 := by
    rw [toNat_immediate]
    exact m.isLt
  have hrow : immediateOp funct3 ((m.setWidth 32).extractLsb' 5 7) = some mk := by
    rwa [BitVec.extractLsb'_setWidth_of_le (by decide)]
  rw [← encI_setWidth]
  exact decode_eq_ok_iff.2 (decodes_immediateAlu rd rs1 hrow hlt)

theorem decode_immediateShift {f : BitVec 7} (n : BitVec 5) (h : immediateOp funct3 f = some mk) :
    decode (f ++ n ++ rs1 ++ funct3 ++ rd ++ 0b0010011#7) = .ok (mk rd rs1 ((f ++ n).setWidth 32)) :=
  decode_immediateAlu rd rs1 (f ++ n) (by rwa [BitVec.extractLsb'_append_eq_left])

/-- R72, R79: Slli's `funct3` has the row of the top field zero alone. -/
theorem decode_slli_functError {f : BitVec 7} (n : BitVec 5) (hf : f ≠ 0b0000000#7) :
    decode (f ++ n ++ rs1 ++ 0b001#3 ++ rd ++ 0b0010011#7) = .error .functError := by
  change decode (encR f n rs1 0b001#3 rd (Group.opcode .immediateAlu)) = _
  rw [decode_eq_functError_iff, funct3Field_encR, funct7Field_encR]
  exact ⟨.immediateAlu, opcodeField_encR _ _ _ _ _ _, (not_recognises_iff _ f).1.2 (.inl ⟨rfl, hf⟩)⟩

end

end Sys2Proof

namespace Sys2Proof.Machine

/-! ## The shape -/

/-- R170: an operation of this family completes with its operator's value, whatever is known of that value. -/
theorem State.aluImmediate_completes {s : State} {op : Word → Word → Word} {rd rs1 : RegNum} {imm : Word}
    {P : Word → Prop} (hP : P (op (s.reg rs1) imm)) :
    ∃ t v, s.aluImmediate op rd rs1 imm = .next t ∧ P v ∧ WritesReg s t rd v (s.pc + 4#32) :=
  ⟨_, _, rfl, hP, s.finish_writesReg rd _⟩

/-! ## The obligations -/

/-- Settles O34: bit `k` of the value is the operator on the register's and the field's bits `k`. -/
theorem immediateLogic : Obligations.ImmediateLogic := by
  intro s rd rs1 m
  refine ⟨decode_immediateAlu rd rs1 m rfl, ?xori, decode_immediateAlu rd rs1 m rfl, ?ori,
    decode_immediateAlu rd rs1 m rfl, ?andi⟩
  case xori => exact State.aluImmediate_completes fun k => by rw [BitVec.getLsbD_xor, getLsbD_immediate]
  case ori => exact State.aluImmediate_completes fun k => by rw [BitVec.getLsbD_or, getLsbD_immediate]
  case andi => exact State.aluImmediate_completes fun k => by rw [BitVec.getLsbD_and, getLsbD_immediate]

/-- Settles O35: the top field selects the operation and is no part of the amount, so each shift is a product or a floor
by the power of two of the low field. -/
theorem immediateShifts : Obligations.ImmediateShifts := by
  intro s rd rs1 n
  rw [← setWidth_srai_append, ← setWidth_zero_append]
  refine ⟨decode_immediateShift rd rs1 n rfl, fun f hf => decode_slli_functError rd rs1 n hf, ?slli,
    decode_immediateShift rd rs1 n rfl, ?srli, decode_immediateShift rd rs1 n rfl, ?srai⟩
  case slli => exact State.aluImmediate_completes (by rw [toNat_shiftLeft, toNat_shiftImmediate_mod])
  case srli => exact State.aluImmediate_completes (by rw [toNat_shiftRightLogical, toNat_shiftImmediate_mod])
  case srai => exact State.aluImmediate_completes (by rw [toInt_shiftRightArith, toNat_shiftImmediate_mod])

/-- Settles O36: the immediate is its own signed and unsigned value, and the truth value is written as 1 or 0. -/
theorem immediateComparisons : Obligations.ImmediateComparisons := by
  intro s rd rs1 m
  refine ⟨decode_immediateAlu rd rs1 m rfl, ?slti, decode_immediateAlu rd rs1 m rfl, ?sltiu⟩
  case slti =>
    exact State.aluImmediate_completes (op := fun a b => truthWord (isLessSigned a b))
      (by rw [truthWord_isLessSigned, toInt_immediate])
  case sltiu =>
    exact State.aluImmediate_completes (op := fun a b => truthWord (isLessUnsigned a b))
      (by rw [truthWord_isLessUnsigned, toNat_immediate])

/-- Settles O33: a carry out of bit 31 is lost. -/
theorem addiAddsMagnitude : Obligations.AddiAddsMagnitude := by
  intro s rd rs1 m
  exact ⟨decode_immediateAlu rd rs1 m rfl, State.aluImmediate_completes (by rw [BitVec.toNat_add, toNat_immediate])⟩

end Sys2Proof.Machine
end

section
/-! The loads (spec/44_load.md): how a 12-bit field decodes, the fault entry of every load and store whose effective
address is no slot, and the effective address at a field. -/

namespace Sys2Proof

/-- R73: the row of `funct3` decodes with the field's magnitude. -/
theorem decode_load {funct3 : BitVec 3} {mk : RegNum → RegNum → Word → Instr} (rd rs1 : RegNum) (m : BitVec 12)
    (h : loadOp funct3 = some mk) :
    decode (m ++ rs1 ++ funct3 ++ rd ++ 0b0000011#7) = .ok (mk rd rs1 (m.setWidth 32)) := by
  have hlt : (m.setWidth 32).toNat < 2 ^ 12 := by
    rw [toNat_immediate]
    exact m.isLt
  rw [← encI_setWidth]
  exact decode_eq_ok_iff.2 (decodes_load rd rs1 h hlt)

end Sys2Proof

namespace Sys2Proof.Machine

/-! ## The fault entry -/

theorem State.takeFault_entersFault (s : State) (f : LatchedFault) : EntersFault s (s.takeFault f) f :=
  ⟨rfl, fun _ => rfl, fun _ => rfl, rfl, rfl, rfl⟩

/-- R269: of everything an instruction can do, the fault entry alone is left to a load or store out of range. -/
theorem exec_entersMemIndexFault {i : Instr} {s : State} {ea : Int} (hea : memAddress s i = some ea)
    (hout : ea < 0 ∨ 2047 < ea) : ∃ t, exec i s = .next t ∧ EntersFault s t .memIndexFault := by
  rcases exec_cases i s with ⟨rd, v, -, -, -, -, hin⟩ | ⟨_, -, -, hexec, -⟩ | ⟨n, -, -, -, -, hnone⟩ |
    ⟨rd, n, -, -, -, -, -, hnone⟩ | ⟨a, v, eb, heb, hslot, -⟩ | ⟨imm, -, -, hnone, -⟩ | ⟨rd, imm, -, -, hnone, -⟩
  case inl =>
    have := hin ea hea
    omega
  case inr.inl => exact ⟨_, hexec, s.takeFault_entersFault _⟩
  case inr.inr.inr.inr.inl =>
    cases hea.symm.trans heb
    cases hslot.symm.trans (slotOf_eq_none.2 hout)
  all_goals cases hea.symm.trans hnone

section
variable {s : State} {rs1 : RegNum} {m : BitVec 12}

/-! ## The effective address at a field -/

/-- R42: the field is added as the magnitude it is. -/
theorem State.ea_immediate : s.ea rs1 (m.setWidth 32) = (s.reg rs1).toInt + (m.toNat : Int) := by
  rw [State.ea, toNat_immediate]

/-- R41: an effective address in `0 .. 2047` is a slot index as it stands. -/
theorem slotOf_ea_immediate {a : Nat} (ha : (a : Int) = (s.reg rs1).toInt + (m.toNat : Int)) (hle : a ≤ 2047) :
    slotOf (s.ea rs1 (m.setWidth 32)) = some a :=
  slotOf_eq_some.2 ⟨ha.trans State.ea_immediate.symm, Nat.lt_succ_of_le hle⟩

/-- R41: an effective address below 0 or above 2047 is no slot. -/
theorem exec_entersMemIndexFault_immediate {i : Instr} (hi : memAddress s i = some (s.ea rs1 (m.setWidth 32)))
    (hout : (s.reg rs1).toInt + (m.toNat : Int) < 0 ∨ 2047 < (s.reg rs1).toInt + (m.toNat : Int)) :
    ∃ t, exec i s = .next t ∧ EntersFault s t .memIndexFault :=
  exec_entersMemIndexFault (hi.trans (congrArg some State.ea_immediate)) hout

end

/-! ## The obligations -/

/-- Settles O37: an address in range names a slot, whose low byte both loads take; any other address enters the fault. -/
theorem byteLoads : Obligations.ByteLoads := by
  intro s rd rs1 m
  refine ⟨decode_load rd rs1 m rfl, decode_load rd rs1 m rfl, fun a ha hle => ?inRange, fun hout => ?outOfRange⟩
  case inRange =>
    obtain ⟨hlb, -, -, hlbu, -⟩ := loadsSee_of_slotOf (slotOf_ea_immediate ha hle) rd
    exact ⟨hlb, hlbu⟩
  case outOfRange =>
    exact ⟨exec_entersMemIndexFault_immediate rfl hout, exec_entersMemIndexFault_immediate rfl hout⟩

/-- Settles O38: the range decides as for the byte loads, and both take the low half of the slot. -/
theorem halfLoads : Obligations.HalfLoads := by
  intro s rd rs1 m
  refine ⟨decode_load rd rs1 m rfl, decode_load rd rs1 m rfl, fun a ha hle => ?inRange, fun hout => ?outOfRange⟩
  case inRange =>
    obtain ⟨-, hlh, -, -, hlhu⟩ := loadsSee_of_slotOf (slotOf_ea_immediate ha hle) rd
    exact ⟨hlh, hlhu⟩
  case outOfRange =>
    exact ⟨exec_entersMemIndexFault_immediate rfl hout, exec_entersMemIndexFault_immediate rfl hout⟩

/-- Settles O39: the range decides as for the narrow loads, and the word of the slot is taken whole. -/
theorem wordLoad : Obligations.WordLoad := by
  intro s rd rs1 m
  refine ⟨decode_load rd rs1 m rfl, fun a ha hle => ?inRange, fun hout => ?outOfRange⟩
  case inRange =>
    obtain ⟨-, -, hlw, -, -⟩ := loadsSee_of_slotOf (slotOf_ea_immediate ha hle) rd
    exact hlw
  case outOfRange => exact exec_entersMemIndexFault_immediate rfl hout

end Sys2Proof.Machine
end

section
/-! Jalr (spec/45_jalr.md): how a 12-bit field decodes, the link-and-jump that Jal shares, the target number at a field,
and the fault entry of a target number that is no register's. -/

namespace Sys2Proof

/-- R74: Jalr's one row decodes with the field's magnitude. -/
theorem decode_jalr (rd rs1 : RegNum) (m : BitVec 12) :
    decode (m ++ rs1 ++ 0b000#3 ++ rd ++ 0b1100111#7) = .ok (.jalr rd rs1 (m.setWidth 32)) := by
  have hlt : (m.setWidth 32).toNat < 2 ^ 12 := (toNat_immediate m).trans_lt m.isLt
  rw [← encI_setWidth]
  exact decode_eq_ok_iff.2 (decodes_jalr rd rs1 rfl hlt)

end Sys2Proof

namespace Sys2Proof.Machine

/-! ## The link and the jump -/

/-- R200, R250: a linking jump completes, and the link and the target are its only writes. -/
theorem State.link_writesReg (s : State) (rd : RegNum) (target : Word) :
    ∃ t, s.link rd target = .next t ∧ WritesReg s t rd (s.pc + 4#32) target :=
  ⟨_, rfl, fun j => s.reg_setReg rd s.nextPc j, by simp, by simp, by simp, by simp [SameParams]⟩

/-! ## The target number -/

/-- R200: the field is added to the register's number as the magnitude it is. -/
theorem targetNumber_immediate (rs1 : RegNum) (m : BitVec 12) :
    targetNumber rs1 (m.setWidth 32) = rs1.toNat + m.toNat := by
  rw [targetNumber, toNat_immediate]

/-- R200, R202: a target number that is register `j`'s reads that register in the state before the link. -/
theorem exec_jalr_of_targetNumber {rs1 j : RegNum} {imm : Word} (hj : j.toNat = targetNumber rs1 imm) (rd : RegNum)
    (s : State) : exec (.jalr rd rs1 imm) s = s.link rd (s.reg j) := by
  have hin : ¬ 31 < targetNumber rs1 imm := by omega
  have hreg : BitVec.ofNat 5 (targetNumber rs1 imm) = j := by rw [← hj, BitVec.ofNat_toNat, BitVec.setWidth_eq]
  rw [exec, execJalr, if_neg hin, hreg]

/-- R201, R270: of everything an instruction can do, the fault entry alone is left to a target number above 31. -/
theorem exec_entersRegIndexFault {i : Instr} {s : State} {n : Nat} (hn : jalrNumber i = some n) (hout : 31 < n) :
    ∃ t, exec i s = .next t ∧ EntersFault s t .regIndexFault := by
  rcases exec_cases i s with ⟨rd, v, -, -, -, hnone, -⟩ | ⟨ea, -, -, -, -, hnone, -⟩ | ⟨_, -, -, hexec, -⟩ |
    ⟨rd, k, hk, hin, -⟩ | ⟨a, v, ea, -, -, -, -, -, -, hnone⟩ | ⟨imm, -, hnone, -⟩ | ⟨rd, imm, -, hnone, -⟩
  case inr.inr.inl => exact ⟨_, hexec, s.takeFault_entersFault _⟩
  case inr.inr.inr.inl =>
    cases hn.symm.trans hk
    omega
  all_goals cases hn.symm.trans hnone

/-! ## The obligations -/

/-- Settles O40: the target register is read in the state before the link, also where it is `rd` itself. -/
theorem jalrJumpsToNumberedRegister : Obligations.JalrJumpsToNumberedRegister := by
  intro s rd rs1 m
  refine ⟨decode_jalr rd rs1 m, fun j hj => ?_⟩
  rw [exec_jalr_of_targetNumber (hj.trans (targetNumber_immediate rs1 m).symm)]
  exact s.link_writesReg rd (s.reg j)

/-- Settles O41: a sum above 31 is no register's number, and the fault entry writes the latch alone. -/
theorem jalrBeyondTheRegisterFileFaults : Obligations.JalrBeyondTheRegisterFileFaults := by
  intro s rd rs1 m hout
  exact exec_entersRegIndexFault (congrArg some (targetNumber_immediate rs1 m)) hout

end Sys2Proof.Machine
end

section
/-! The stores (spec/46_store.md): how a 12-bit field decodes from its two parts, and the value of a merged slot. -/

namespace Sys2Proof

/-- The S layout of a zero-extended field holds the field's two parts (R64). -/
theorem encS_setWidth (m : BitVec 12) (rs2 rs1 : RegNum) (funct3 : BitVec 3) (op : BitVec 7) :
    encS (m.setWidth 32) rs2 rs1 funct3 op =
      m.extractLsb' 5 7 ++ rs2 ++ rs1 ++ funct3 ++ m.extractLsb' 0 5 ++ op := by
  rw [encS, BitVec.extractLsb'_setWidth_of_le (by decide), BitVec.extractLsb'_setWidth_of_le (by decide)]

/-- R75: the row of `funct3` decodes with the field's magnitude. -/
theorem decode_store {funct3 : BitVec 3} {mk : RegNum → RegNum → Word → Instr} (rs1 rs2 : RegNum) (m : BitVec 12)
    (h : storeOp funct3 = some mk) :
    decode (m.extractLsb' 5 7 ++ rs2 ++ rs1 ++ funct3 ++ m.extractLsb' 0 5 ++ 0b0100011#7) =
      .ok (mk rs1 rs2 (m.setWidth 32)) := by
  have hlt : (m.setWidth 32).toNat < 2 ^ 12 := (toNat_immediate m).trans_lt m.isLt
  rw [← encS_setWidth]
  exact decode_eq_ok_iff.2 (decodes_store rs1 rs2 h hlt)

end Sys2Proof

namespace Sys2Proof.Machine

/-- The low `k` bits of `v` below the remaining bits of `old`. -/
theorem toNat_high_append_low {j k : Nat} (hjk : j + k = 32) (old v : Word) :
    (old.extractLsb' k j ++ v.extractLsb' 0 k).toNat = old.toNat / 2 ^ k * 2 ^ k + v.toNat % 2 ^ k := by
  have hhigh : old.toNat / 2 ^ k < 2 ^ j := by
    rw [Nat.div_lt_iff_lt_mul (Nat.two_pow_pos k), ← pow_add, hjk]
    exact old.isLt
  rw [BitVec.toNat_append, ← Nat.shiftLeft_add_eq_or_of_lt (BitVec.isLt _), BitVec.extractLsb'_toNat,
    BitVec.extractLsb'_toNat, Nat.shiftLeft_eq, Nat.shiftRight_eq_div_pow, Nat.shiftRight_zero, Nat.mod_eq_of_lt hhigh]

/-- R43, R55: a merge replaces the slot's value modulo the width and keeps its quotient. -/
theorem Width.toNat_merge (n : Width) (old v : Word) :
    (n.merge old v).toNat = old.toNat / 2 ^ n.bits * 2 ^ n.bits + v.toNat % 2 ^ n.bits := by
  cases n with
  | byte => exact toNat_high_append_low (j := 24) rfl old v
  | half => exact toNat_high_append_low (j := 16) rfl old v
  | full =>
    simp only [Width.merge, Width.bits, Nat.div_eq_of_lt old.isLt, Nat.mod_eq_of_lt v.isLt, Nat.zero_mul, Nat.zero_add]

/-- Settles O42: an address in range names a slot, where each store leaves its merge; any other address enters the
fault. -/
theorem storesReplaceLowBits : Obligations.StoresReplaceLowBits := by
  intro s rs1 rs2 m hm
  refine ⟨decode_store rs1 rs2 m rfl, decode_store rs1 rs2 m rfl, decode_store rs1 rs2 m rfl,
    fun a ha hle => ?inRange, fun hout => ?outOfRange⟩
  case inRange =>
    have hstore (n : Width) := State.store_writesSlot hm (slotOf_ea_immediate ha hle) n rs2
    obtain ⟨tb, hsb, hwb⟩ := hstore .byte
    obtain ⟨th, hsh, hwh⟩ := hstore .half
    exact ⟨⟨tb, _, hsb, Width.toNat_merge .byte _ _, hwb⟩, ⟨th, _, hsh, Width.toNat_merge .half _ _, hwh⟩,
      hstore .full⟩
  case outOfRange =>
    exact ⟨exec_entersMemIndexFault_immediate rfl hout, exec_entersMemIndexFault_immediate rfl hout,
      exec_entersMemIndexFault_immediate rfl hout⟩

end Sys2Proof.Machine
end

section
/-! The branches (spec/47_branch.md): the value of an even offset and how it decodes from its four parts, what the
predicates decide, and the one shape in which the six branches complete. -/

namespace Sys2Proof

/-! ## The value of an even offset

The width is any that fits a word, for the 12 bits of a branch and the 20 of Jal alike. -/

section
variable {n : Nat} (b : BitVec n)

/-- R65, R67: the offset is twice its field, the bit 0 being zero. -/
theorem toNat_evenOffset (hn : n < 32) : ((b ++ 0#1).setWidth 32).toNat = 2 * b.toNat := by
  rw [BitVec.toNat_setWidth_of_le hn, BitVec.toNat_append, ← Nat.shiftLeft_add_eq_or_of_lt (BitVec.isLt _),
    Nat.shiftLeft_eq, BitVec.toNat_ofNat]
  omega

theorem evenOffset_eq_ofNat (hn : n < 32) : (b ++ 0#1).setWidth 32 = BitVec.ofNat 32 (2 * b.toNat) := by
  rw [← toNat_evenOffset b hn, BitVec.ofNat_toNat, BitVec.setWidth_eq]

/-- A part of the offset above bit 0 is the part of the field one place lower. -/
theorem extractLsb'_evenOffset {k len : Nat} (hk : k + 1 + len ≤ 32) :
    ((b ++ 0#1).setWidth 32).extractLsb' (k + 1) len = b.extractLsb' k len := by
  apply BitVec.eq_of_getLsbD_eq
  intro j hj
  have hlt : k + 1 + j < 32 := by omega
  have hpos : ¬ k + 1 + j < 1 := by omega
  have hsub : k + 1 + j - 1 = k + j := by omega
  simp only [BitVec.getLsbD_extractLsb', BitVec.getLsbD_setWidth, BitVec.getLsbD_append, hlt, hpos, hsub, decide_true,
    Bool.true_and, if_false]

end

/-! ## Decoding an even offset -/

/-- The B layout of an even offset holds the four parts of its field (R65). -/
theorem encB_evenOffset (b : BitVec 12) (rs2 rs1 : RegNum) (funct3 : BitVec 3) (op : BitVec 7) :
    encB ((b ++ 0#1).setWidth 32) rs2 rs1 funct3 op =
      b.extractLsb' 11 1 ++ b.extractLsb' 4 6 ++ rs2 ++ rs1 ++ funct3 ++ b.extractLsb' 0 4 ++ b.extractLsb' 10 1 ++
        op := by
  have hpart {k len : Nat} (hk : k + 1 + len ≤ 32) := extractLsb'_evenOffset b hk
  rw [encB, hpart (k := 11) (by decide), hpart (k := 4) (by decide), hpart (k := 0) (by decide),
    hpart (k := 10) (by decide)]

/-- R76: the row of `funct3` decodes with the even offset. -/
theorem decode_branch {funct3 : BitVec 3} {mk : RegNum → RegNum → Word → Instr} (rs1 rs2 : RegNum) (b : BitVec 12)
    (h : branchOp funct3 = some mk) :
    decode (b.extractLsb' 11 1 ++ b.extractLsb' 4 6 ++ rs2 ++ rs1 ++ funct3 ++ b.extractLsb' 0 4 ++
      b.extractLsb' 10 1 ++ 0b1100011#7) = .ok (mk rs1 rs2 ((b ++ 0#1).setWidth 32)) := by
  have himm : ((b ++ 0#1).setWidth 32).toNat < 2 ^ 13 ∧ ((b ++ 0#1).setWidth 32).toNat % 2 = 0 := by
    rw [toNat_evenOffset b (by decide)]
    omega
  rw [← encB_evenOffset]
  exact decode_eq_ok_iff.2 (decodes_branch rs1 rs2 h himm)

end Sys2Proof

namespace Sys2Proof.Machine

/-! ## The predicates -/

/-- The complement of a predicate decides the negation of what the predicate decides. -/
theorem complement_iff {holds : Bool} {P : Prop} (h : holds = true ↔ P) : (!holds) = true ↔ ¬ P := by
  rw [Bool.not_eq_true', ← Bool.not_eq_true, h]

section
variable {a b : Word}

theorem isEqual_iff : isEqual a b = true ↔ a = b := beq_iff_eq

theorem not_isEqual_iff : (!isEqual a b) = true ↔ a ≠ b := complement_iff isEqual_iff

theorem isLessSigned_iff : isLessSigned a b = true ↔ a.toInt < b.toInt := decide_eq_true_iff

theorem not_isLessSigned_iff : (!isLessSigned a b) = true ↔ a.toInt ≥ b.toInt :=
  (complement_iff isLessSigned_iff).trans Int.not_lt

theorem isLessUnsigned_iff : isLessUnsigned a b = true ↔ a.toNat < b.toNat := decide_eq_true_iff

theorem not_isLessUnsigned_iff : (!isLessUnsigned a b) = true ↔ a.toNat ≥ b.toNat :=
  (complement_iff isLessUnsigned_iff).trans Nat.not_lt

end

/-! ## The shape -/

theorem State.setPc_onlyPc (s : State) (p : Word) : OnlyPc s (s.setPc p) p :=
  ⟨fun _ => rfl, fun _ => rfl, rfl, rfl, rfl, rfl⟩

/-- R220: a branch completes with the pc alone changed, its predicate choosing between the two targets. -/
theorem State.branch_onlyPc {s : State} {holds : Word → Word → Bool} {rs1 rs2 : RegNum} {P : Prop} [Decidable P]
    (hP : holds (s.reg rs1) (s.reg rs2) = true ↔ P) (b : BitVec 12) :
    ∃ t, s.branch holds rs1 rs2 ((b ++ 0#1).setWidth 32) = .next t ∧
      OnlyPc s t (if P then s.pc + BitVec.ofNat 32 (2 * b.toNat) else s.pc + 4#32) := by
  rw [evenOffset_eq_ofNat b (by decide)]
  rcases s.branch_cases holds rs1 rs2 (BitVec.ofNat 32 (2 * b.toNat)) with ⟨htaken, hnext⟩ | ⟨hnot, hnext⟩
  · rw [if_pos (hP.1 htaken)]
    exact ⟨_, hnext, s.setPc_onlyPc _⟩
  · rw [if_neg fun h => Bool.eq_false_iff.1 hnot (hP.2 h)]
    exact ⟨_, hnext, s.setPc_onlyPc s.nextPc⟩

/-! ## The obligations -/

/-- Settles O44: the two predicates are the equality of the patterns and its negation. -/
theorem equalityBranches : Obligations.EqualityBranches := by
  intro s rs1 rs2 b
  refine ⟨decode_branch rs1 rs2 b rfl, decode_branch rs1 rs2 b rfl, ?beq, ?bne⟩
  case beq => exact State.branch_onlyPc isEqual_iff b
  case bne => exact State.branch_onlyPc (holds := fun x y => !isEqual x y) not_isEqual_iff b

/-- Settles O45: Bge's predicate is the negation of Blt's, and not less is greater or equal. -/
theorem signedBranches : Obligations.SignedBranches := by
  intro s rs1 rs2 b
  refine ⟨decode_branch rs1 rs2 b rfl, decode_branch rs1 rs2 b rfl, ?blt, ?bge⟩
  case blt => exact State.branch_onlyPc isLessSigned_iff b
  case bge => exact State.branch_onlyPc (holds := fun x y => !isLessSigned x y) not_isLessSigned_iff b

/-- Settles O46: as for the signed comparisons, over the unsigned values. -/
theorem unsignedBranches : Obligations.UnsignedBranches := by
  intro s rs1 rs2 b
  refine ⟨decode_branch rs1 rs2 b rfl, decode_branch rs1 rs2 b rfl, ?bltu, ?bgeu⟩
  case bltu => exact State.branch_onlyPc isLessUnsigned_iff b
  case bgeu => exact State.branch_onlyPc (holds := fun x y => !isLessUnsigned x y) not_isLessUnsigned_iff b

end Sys2Proof.Machine
end

section
/-! The upper immediates and Jal (spec/48_upper_immediate.md, spec/49_jump.md): how a 20-bit field decodes from its
layout, and what the shift by 12 makes of it. -/

namespace Sys2Proof

/-! ## Decoding a 20-bit field -/

section
variable (rd : RegNum)

/-- R66: the immediate is the field's own magnitude. -/
theorem toNat_upperField (m : BitVec 20) : (m.setWidth 32).toNat = m.toNat :=
  BitVec.toNat_setWidth_of_le (by decide)

theorem toNat_upperField_lt (m : BitVec 20) : (m.setWidth 32).toNat < 2 ^ 20 :=
  (toNat_upperField m).trans_lt m.isLt

/-- The U layout of a zero-extended field holds the field itself (R66). -/
theorem encU_setWidth (m : BitVec 20) (op : BitVec 7) : encU (m.setWidth 32) rd op = m ++ rd ++ op := by
  rw [encU, BitVec.extractLsb'_setWidth_of_le (by decide), BitVec.extractLsb'_eq_self]

theorem decode_lui (m : BitVec 20) : decode (m ++ rd ++ 0b0110111#7) = .ok (.lui rd (m.setWidth 32)) := by
  rw [← encU_setWidth]
  exact decode_eq_ok_iff.2 (decodes_lui rd (toNat_upperField_lt m))

theorem decode_auipc (m : BitVec 20) : decode (m ++ rd ++ 0b0010111#7) = .ok (.auipc rd (m.setWidth 32)) := by
  rw [← encU_setWidth]
  exact decode_eq_ok_iff.2 (decodes_auipc rd (toNat_upperField_lt m))

/-- The J layout of an even offset holds the four parts of its field (R67). -/
theorem encJ_evenOffset (b : BitVec 20) (op : BitVec 7) : encJ ((b ++ 0#1).setWidth 32) rd op =
    b.extractLsb' 19 1 ++ b.extractLsb' 0 10 ++ b.extractLsb' 10 1 ++ b.extractLsb' 11 8 ++ rd ++ op := by
  have hpart {k len : Nat} (hk : k + 1 + len ≤ 32) := extractLsb'_evenOffset b hk
  rw [encJ, hpart (k := 19) (by decide), hpart (k := 0) (by decide), hpart (k := 10) (by decide),
    hpart (k := 11) (by decide)]

theorem decode_jal (b : BitVec 20) :
    decode (b.extractLsb' 19 1 ++ b.extractLsb' 0 10 ++ b.extractLsb' 10 1 ++ b.extractLsb' 11 8 ++ rd ++
      0b1101111#7) = .ok (.jal rd ((b ++ 0#1).setWidth 32)) := by
  have himm : ((b ++ 0#1).setWidth 32).toNat < 2 ^ 21 ∧ ((b ++ 0#1).setWidth 32).toNat % 2 = 0 := by
    rw [toNat_evenOffset b (by decide)]
    omega
  rw [← encJ_evenOffset]
  exact decode_eq_ok_iff.2 (decodes_jal rd himm)

end

/-- Settles O9: the decoder evaluates on each word. -/
theorem sampleWordsDecode : Obligations.SampleWordsDecode :=
  ⟨rfl, rfl, rfl, rfl, rfl, rfl, rfl, rfl, rfl⟩

end Sys2Proof

namespace Sys2Proof.Machine

/-- R240: no bit of a 20-bit field is shifted out of the word. -/
theorem toNat_upper (m : BitVec 20) : (upper (m.setWidth 32)).toNat = m.toNat * 2 ^ 12 := by
  rw [upper, BitVec.toNat_shiftLeft, toNat_upperField, Nat.shiftLeft_eq, Nat.mod_eq_of_lt (by omega)]

/-- Settles O47: the shifted field is the value that the instruction finishes with. -/
theorem luiShiftsBy12 : Obligations.LuiShiftsBy12 := by
  intro s rd m
  exact ⟨decode_lui rd m, _, _, rfl, toNat_upper m, s.finish_writesReg rd _⟩

/-- Settles O48: a carry out of bit 31 of the sum is lost. -/
theorem auipcAddsToThePc : Obligations.AuipcAddsToThePc := by
  intro s rd m
  have hsum : (s.pc + upper (m.setWidth 32)).toNat = (s.pc.toNat + m.toNat * 2 ^ 12) % 2 ^ 32 := by
    rw [BitVec.toNat_add, toNat_upper]
  exact ⟨decode_auipc rd m, _, _, rfl, hsum, s.finish_writesReg rd _⟩

/-- Settles O49: the link and the target of a linking jump both come from the state before it. -/
theorem jalLinksAndJumps : Obligations.JalLinksAndJumps := by
  intro s rd b
  refine ⟨decode_jal rd b, ?_⟩
  rw [evenOffset_eq_ofNat b (by decide)]
  exact s.link_writesReg rd _

end Sys2Proof.Machine
end

section
/-! The outcomes of a step (spec/60_exceptions.md): which steps report a decode error, that no operation is
unimplemented, and the entries on the two faults. -/

namespace Sys2Proof.Machine

/-! ## The decode errors -/

theorem stepError_injective : Function.Injective stepError := by
  intro e e'
  cases e <;> cases e' <;> decide

theorem LatchedFault.report_ne_stepError (f : LatchedFault) (e : DecodeError) : f.report ≠ stepError e := by
  cases f <;> cases e <;> decide

/-- R103, R106: a decode error is reported exactly where the fetched slot decodes to it, no other step having its name. -/
theorem hostStep_reports_stepError_iff {s : State} (hclear : s.fault = none) (e : DecodeError) :
    (hostStep s).2 = .failed (stepError e) ↔ ∃ x, s.fetch = some x ∧ x.decode = .error e := by
  constructor
  · intro h
    rcases hostStep_cases s with ⟨f, -, hs⟩ | ⟨-, -, hs⟩ | ⟨x, e', -, hx, he', hs⟩ | ⟨x, i, t, -, -, -, -, -, hs⟩ |
      ⟨x, i, f, -, -, -, -, hs⟩ <;> rw [hs] at h
    case inr.inr.inl =>
      obtain rfl : e' = e := stepError_injective (Report.failed.inj h)
      exact ⟨x, hx, he'⟩
    · exact absurd (Report.failed.inj h) (f.report_ne_stepError e)
    · exact absurd (Report.failed.inj h).symm (stepError_ne_outOfBounds e)
    · cases h
    · exact absurd (Report.failed.inj h) (f.report_ne_stepError e)
  · rintro ⟨x, hx, he⟩
    rw [hostStep_of_step_fault (step_of_decode_error hclear hx he)]

/-- R78, R79: a word has no length to be wrong. -/
theorem decode_ne_formatError (w : Word) : decode w ≠ .error .formatError := by
  intro h
  obtain ⟨-, -, herrors⟩ := wordDecodeErrors w
  rcases herrors _ h with he | he <;> cases he

/-- Settles O7: the text decoder alone gives FormatError, by the length alone, and a decode error keeps the state. -/
theorem formatErrorIffWrongLength : Obligations.FormatErrorIffWrongLength := by
  intro s hclear
  have hreports {x : Slot} (hx : s.fetch = some x) :
      (hostStep s).2 = .failed .formatError ↔ x.decode = .error .formatError := by
    simpa [hx, stepError] using hostStep_reports_stepError_iff hclear .formatError
  refine ⟨fun t hx => ?text, fun w hx => ?word⟩
  case text =>
    have hlength : (hostStep s).2 = .failed .formatError ↔ t.length ≠ 32 :=
      (hreports hx).trans decodeText_eq_formatError_iff
    have hstate (h : t.length ≠ 32) : hostStep s = (s, .failed .formatError) :=
      hostStep_of_step_fault (step_of_decode_error hclear hx (decodeText_eq_formatError_iff.2 h))
    exact ⟨⟨hstate, fun h => hlength.1 (congrArg Prod.snd h)⟩, fun hlen h => hlength.1 h hlen⟩
  case word => exact fun h => decode_ne_formatError w ((hreports hx).1 h)

/-! ## The operations -/

theorem exec_next (i : Instr) (s : State) : ∃ t, exec i s = .next t := by
  rcases exec_cases i s with ⟨_, _, h, -⟩ | ⟨_, -, -, h, -⟩ | ⟨_, -, -, h, -⟩ | ⟨_, _, -, -, -, h, -⟩ |
    ⟨_, _, _, -, -, -, h, -⟩ | ⟨_, -, -, -, -, h | h⟩ | ⟨_, _, -, -, -, -, h⟩
  all_goals exact ⟨_, h⟩

/-- Settles O16: each case of `exec` is a next state, and each case of a host step has another outcome. -/
theorem everyOperationIsImplemented : Obligations.EveryOperationIsImplemented := by
  refine ⟨exec_next, fun s => ?_⟩
  rcases hostStep_cases s with ⟨f, -, hs⟩ | ⟨-, -, hs⟩ | ⟨x, e, -, -, -, hs⟩ | ⟨x, i, t, -, -, -, -, -, hs⟩ |
    ⟨x, i, f, -, -, -, -, hs⟩
  all_goals
    rw [hs]
    exact Report.noConfusion

/-- Settles O20: an index out of range leaves the fault entry alone to an instruction. -/
theorem indexFaultsSetTheLatch : Obligations.IndexFaultsSetTheLatch := by
  intro i s
  exact ⟨fun _ => exec_entersMemIndexFault, fun _ => exec_entersRegIndexFault⟩

end Sys2Proof.Machine
end

section
/-! The reset state, and a read of a register after a write (spec/10_state.md R21, R33). -/

namespace Sys2Proof.Machine

/-- Settles O25: the reset state is the machine initialised on the empty program. -/
theorem invariantHoldsAtReset : Obligations.InvariantHoldsAtReset :=
  State.initial_inv true (by decide)

/-- R21: a write to the hardwired register 0 is discarded. -/
theorem State.setReg_zero_of_hardwired {s : State} (h : s.x0Hardwired = true) (v : Word) : s.setReg 0#5 v = s :=
  if_pos (by simp [State.hardwired, h])

/-- R20, R21: a write that is not discarded is what the register then reads. -/
theorem State.reg_setReg_same {s : State} {i : RegNum} (h : s.x0Hardwired = false ∨ i ≠ 0#5) (v : Word) :
    (s.setReg i v).reg i = v := by
  have hkept : ¬ (s.x0Hardwired = true ∧ i = 0#5) := by
    rintro ⟨hwired, h0⟩
    exact h.elim (fun hnot => Bool.false_ne_true (hnot.symm.trans hwired)) (fun hne => hne h0)
  rw [State.reg_setReg, if_pos ⟨rfl, hkept⟩]

/-- Settles O26: the register file read after a write, at the hardwired register 0, the same and another register. -/
theorem registerWriteThenRead : Obligations.RegisterWriteThenRead := by
  intro s i v
  exact ⟨fun hwired => ⟨State.reg_zero_of_hardwired hwired, State.setReg_zero_of_hardwired hwired v⟩,
    fun h => State.reg_setReg_same h v, fun j hne => s.reg_setReg_of_ne v hne.symm⟩

end Sys2Proof.Machine
end
